-- ==== Sys2Proof/Word.lean ====
section
/-! DEFINITION. The bit widths of the not-SEGA-BIRTH CORE: a byte, a 16-bit half and a 32-bit long
(spec/00_scope.md R6, R8). Byte-order and sign helpers stand in Machine/Operands.lean. -/

namespace Sys2Proof

/-- An unsigned 8-bit value (R8): a memory cell, an opcode, the accumulator `A`. -/
abbrev Byte := BitVec 8

/-- An unsigned 16-bit value: `X`, `PC`, `CodeSize` and every 16-bit operand (R32, R33, R34, R97). -/
abbrev Half := BitVec 16

/-- A 32-bit pattern: the cartridge header's integers and `EntryPoint` (R9, R35). -/
abbrev Long := BitVec 32

/-- One 4-bit pixel intensity (R187). -/
abbrev Nibble := BitVec 4

end Sys2Proof
end

