-- ==== Sys2Proof/Config.lean ====
section
/-! DEFINITION. The implementation parameters of spec/00_scope.md R6, each one named value, set to the
value the spec shows. A later audit of a literal changes one line here. -/

namespace Sys2Proof

/-- What an undefined opcode does (R6 `UNDEF_POLICY`, R223, decision D9). -/
inductive UndefPolicy where
  | nop
  | fault
  deriving DecidableEq, Repr

namespace Config

/-- Width of `A` in bits (R6, R31). -/
@[simp] abbrev aBits : Nat := 8

/-- Width of `X` in bits (R6, R32). -/
@[simp] abbrev xBits : Nat := 16

/-- Width of `PC` in bits (R6, R33; decision D2). -/
@[simp] abbrev pcBits : Nat := 16

/-- Width of `CodeSize` in bits (R6, R34; decision D3). -/
@[simp] abbrev codeSizeBits : Nat := 16

/-- Width of `EntryPoint` in bits (R6, R35; decision D4). -/
@[simp] abbrev entryPointBits : Nat := 32

/-- Width of an opcode in bits (R6, R90). -/
@[simp] abbrev opcodeBits : Nat := 8

/-- `CODE_MEM_SIZE` (R6): bytes of code/work memory. -/
@[simp] abbrev codeMemSize : Nat := 32768

/-- `GFX_MEM_SIZE` (R6): bytes of graphics memory. -/
@[simp] abbrev gfxMemSize : Nat := 65536

/-- `TILE` (R6): the edge of a tile in pixels. -/
@[simp] abbrev tile : Nat := 8

/-- Bits per pixel (R6). -/
@[simp] abbrev bitsPerPixel : Nat := 4

/-- Pixels packed in one byte (R6: "two pixels per byte"). -/
@[simp] abbrev pixelsPerByte : Nat := 8 / bitsPerPixel

/-- `SCALE` (R6): the side of an emitted square, in screen units. -/
@[simp] abbrev scale : Nat := 2

/-- `HEADER_BYTES` (R6): the bitmap's width and height. -/
@[simp] abbrev headerBytes : Nat := 4

/-- `STEPS_PER_FRAME` (R6): the host's quota of steps per frame. -/
@[simp] abbrev stepsPerFrame : Nat := 10

/-- Length in bytes of an instruction of format F0, the opcode alone (R6, R91, R93). -/
@[simp] abbrev lengthF0 : Nat := 1

/-- Length in bytes of an instruction of format F1 (R6, R91, R94). -/
@[simp] abbrev lengthF1 : Nat := 2

/-- Length in bytes of an instruction of format F2 (R6, R91, R95). -/
@[simp] abbrev lengthF2 : Nat := 3

/-- Length in bytes of an instruction of format F4 (R6, R91, R96). -/
@[simp] abbrev lengthF4 : Nat := 5

/-- The longest instruction in bytes (R90, R91): format F4. -/
@[simp] abbrev maxInstrBytes : Nat := lengthF4

/-- The cartridge magic `BIRTH_EXEC`, by its ASCII bytes (R6, R262). PRESUMED: the byte values are
marked in R262 as general knowledge (notes/assumptions/13.md). -/
def magic : List Byte := [0x42, 0x49, 0x52, 0x54, 0x48, 0x5F, 0x45, 0x58, 0x45, 0x43]

/-- The cartridge header's size in bytes (R6, R263). -/
@[simp] abbrev cartHeaderBytes : Nat := 22

/-- Stream offset of the header's entry point, after the magic (R263). -/
@[simp] abbrev entryPointOffset : Nat := 10

/-- Stream offset of the header's code length (R263). -/
@[simp] abbrev codeLengthOffset : Nat := 14

/-- Stream offset of the header's graphics length (R263). -/
@[simp] abbrev gfxLengthOffset : Nat := 18

/-- Number of agents (R6, R7): the interpreter. -/
abbrev agents : Nat := 1

/-- Number of privilege modes (R6, R230; decision D15). -/
abbrev privilegeModes : Nat := 1

/-- `UNDEF_POLICY` (R6): the default, `nop` (R101, R145, R223). -/
def undefPolicy : UndefPolicy := .nop

/-- `FPS` (R6): OPEN, the host's target frame rate. The spec gives it no value, so nothing in Lean can
evaluate it, and no rule of the core reads it (R274; notes/assumptions/9.md). -/
opaque fps : Nat

end Config

end Sys2Proof
end

