-- ==== Sys2Proof/Machine/Operands.lean ====
section
/-! DEFINITION. Byte order, sign reading, and bit fields (spec/00_scope.md R8 to R10,
spec/20_memory.md R65, R67; spec/42_draw_btp.md R187). -/

namespace Sys2Proof.Machine

/-- `le16(b0, b1)`: `b0`, the byte at the lower address, is the less significant (R9, R65). -/
def le16 (b0 b1 : Byte) : Half := BitVec.ofNat 16 (b0.toNat + 256 * b1.toNat)

/-- Bits 7..0 of a half: its byte at the lower address (R95). -/
def loByte (h : Half) : Byte := BitVec.ofNat 8 (h.toNat % 256)

/-- Bits 15..8 of a half: its byte at the higher address (R95). -/
def hiByte (h : Half) : Byte := BitVec.ofNat 8 (h.toNat / 256)

/-- `le32s`'s pattern (R9): four bytes, the lowest address the least significant. -/
def le32 (b0 b1 b2 b3 : Byte) : Long :=
  BitVec.ofNat 32 (b0.toNat + 2 ^ 8 * b1.toNat + 2 ^ 16 * b2.toNat + 2 ^ 24 * b3.toNat)

/-- A 32-bit pattern read as a two's-complement integer (R9). PRESUMED: R9 marks the two's-complement
reading as general knowledge (notes/assumptions/12.md). -/
def signed32 (v : Long) : Int :=
  if v.toNat < 2 ^ 31 then (v.toNat : Int) else (v.toNat : Int) - 2 ^ 32

/-- `sext_16(v)` (R10). PRESUMED: R10 marks two's complement as general knowledge
(notes/assumptions/12.md). -/
def sext16 (v : Half) : Int :=
  if v.toNat < 32768 then (v.toNat : Int) else (v.toNat : Int) - 65536

/-- `b[7:4]`, the left pixel's intensity (R187). -/
def highNibble (b : Byte) : Nibble := BitVec.ofNat 4 (b.toNat / 16)

/-- `b[3:0]`, the right pixel's intensity (R187). -/
def lowNibble (b : Byte) : Nibble := BitVec.ofNat 4 (b.toNat % 16)

end Sys2Proof.Machine
end

