-- ==== Sys2Proof/Syntax.lean ====
section
/-! DEFINITION. The BIRTH opcode set as data: one constructor for each mnemonic of
spec/opcode_table.json. The table's 250 `UNDEF` rows are the 250 opcodes of the one constructor `undef`
(spec/41_data_and_control.md R145). -/

namespace Sys2Proof

/-- An instruction with its operands, which are all immediates (R97). -/
inductive Instr where
  /-- `NOP`, 0x00, format F0 (R140). -/
  | nop
  /-- `SET_A`, 0x01, format F1 (R141). -/
  | setA (imm8 : Byte)
  /-- `SET_X`, 0x02, format F2 (R142). -/
  | setX (imm16 : Half)
  /-- `JMP`, 0x04, format F2: an absolute unsigned target (R98, R143). -/
  | jmp (target : Half)
  /-- `DRAW_BTP`, 0x08, format F4: the raw 16-bit patterns of the two signed origins (R96, R180). -/
  | drawBtp (xraw yraw : Half)
  /-- `HALT`, 0xFF, format F0 (R144). -/
  | halt
  /-- Any other opcode, format F0: a one-byte no-op (R101, R145). -/
  | undef (opcode : Byte)
  deriving DecidableEq, Repr

end Sys2Proof
end

