-- ==== Sys2Proof/WellFormed.lean ====
section
/-! DEFINITION. Which instruction terms are instructions of the machine. Every operand's range is its
type; the one check is that `undef` names an opcode that the table does not define
(spec/30_encoding.md R99, R100). -/

namespace Sys2Proof

/-- The six defined opcodes (R91, R100). -/
def definedOpcodes : List Byte := [0x00, 0x01, 0x02, 0x04, 0x08, 0xFF]

/-- `undef op` is an instruction only where `op` is outside the table's defined rows (R99, R145). -/
def Instr.wf : Instr → Bool
  | .nop => true
  | .setA _ => true
  | .setX _ => true
  | .jmp _ => true
  | .drawBtp _ _ => true
  | .halt => true
  | .undef op => !definedOpcodes.contains op

end Sys2Proof
end

