-- ==== Sys2Proof/Decode.lean ====
section
/-! DEFINITION. The decoder and the encoder of the BIRTH opcode set (spec/30_encoding.md R90 to R103).
The opcode byte alone decides the instruction and its length; every byte value decodes, and only an
instruction whose bytes are not all there is rejected, by name. -/

namespace Sys2Proof

open Machine (le16 loByte hiByte)

/-- Why a byte list holds no instruction. -/
inductive DecodeError where
  /-- There is no opcode byte. -/
  | noOpcode
  /-- The bytes end inside an operand of `opcode`; `start` is the index, in the instruction, of the first
  byte of the operand that is not whole (1, or 3 for `DRAW_BTP`'s Y). -/
  | truncated (opcode : Byte) (start : Nat)
  deriving DecidableEq, Repr

/-- The widths in bytes of an opcode's operand reads, in the order they are read (R91, R70; `DRAW_BTP`
reads X, then Y: R96). -/
def operandWidths (op : Byte) : List Nat :=
  if op = 0x01 then [Config.lengthF1 - Config.lengthF0]
  else if op = 0x02 then [Config.lengthF2 - Config.lengthF0]
  else if op = 0x04 then [Config.lengthF2 - Config.lengthF0]
  else if op = 0x08 then
    [(Config.lengthF4 - Config.lengthF0) / 2, (Config.lengthF4 - Config.lengthF0) / 2]
  else []

/-- An instruction's length in bytes, from its opcode alone (R91). -/
def instrLength (op : Byte) : Nat := Config.lengthF0 + (operandWidths op).sum

/-- Decode the instruction at the front of `bytes`; the rest of the bytes comes back with it
(R91 to R99, R124). -/
def decode (bytes : List Byte) : Except DecodeError (Instr × List Byte) :=
  match bytes with
  | [] => .error .noOpcode
  | op :: rest =>
    if op = 0x00 then .ok (.nop, rest)
    else if op = 0x01 then
      match rest with
      | b :: r => .ok (.setA b, r)
      | _ => .error (.truncated op 1)
    else if op = 0x02 then
      match rest with
      | b0 :: b1 :: r => .ok (.setX (le16 b0 b1), r)
      | _ => .error (.truncated op 1)
    else if op = 0x04 then
      match rest with
      | b0 :: b1 :: r => .ok (.jmp (le16 b0 b1), r)
      | _ => .error (.truncated op 1)
    else if op = 0x08 then
      match rest with
      | b0 :: b1 :: b2 :: b3 :: r => .ok (.drawBtp (le16 b0 b1) (le16 b2 b3), r)
      | _ :: _ :: _ => .error (.truncated op 3)
      | _ => .error (.truncated op 1)
    else if op = 0xFF then .ok (.halt, rest)
    else .ok (.undef op, rest)

/-- An instruction's opcode byte (R91). -/
def Instr.opcode : Instr → Byte
  | .nop => 0x00
  | .setA _ => 0x01
  | .setX _ => 0x02
  | .jmp _ => 0x04
  | .drawBtp _ _ => 0x08
  | .halt => 0xFF
  | .undef op => op

/-- The bytes of an instruction in `CODE` order (R93 to R96): the opcode, then each operand
little-endian. -/
def encode : Instr → List Byte
  | .nop => [0x00]
  | .setA v => [0x01, v]
  | .setX v => [0x02, loByte v, hiByte v]
  | .jmp t => [0x04, loByte t, hiByte t]
  | .drawBtp x y => [0x08, loByte x, hiByte x, loByte y, hiByte y]
  | .halt => [0xFF]
  | .undef op => [op]

/-- The instruction value `I`, of `nbits` bits, as bytes in memory order: byte `k` is `I[8k+7:8k]`
(R92); bytes above `nbits` are 0. -/
def wordBytes (nbits w : Nat) : List Byte :=
  (List.range Config.maxInstrBytes).map fun k => BitVec.ofNat 8 (w % 2 ^ nbits / 256 ^ k)

/-- The instruction the decoder reads from the table word `w` of `nbits` bits. -/
def decodeTableWord (nbits w : Nat) : Option Instr :=
  match decode (wordBytes nbits w) with
  | .ok (i, _) => some i
  | .error _ => none

end Sys2Proof
end

