-- ==== Sys2Proof/Machine/State.lean ====
section
/-! DEFINITION. The state of the CORE as plain data (spec/10_state.md R30 to R45), the reasons a step can
stop, and the state right after power-on reset (spec/70_reset_and_hazards.md R260). -/

namespace Sys2Proof.Machine

/-- A byte buffer as its cells that differ from 0, by rising address; an unlisted address reads as 0,
which is the power-on content of both buffers (R40, R41). -/
abbrev Memory := List Host.Cell

/-- The two colours of a decoded pixel (R188). -/
inductive Color where
  | lit
  | unlit
  deriving DecidableEq, Repr

/-- The diagnostic kinds (R220): there is one. -/
inductive DiagKind where
  | outOfBoundsJump
  deriving DecidableEq, Repr

/-- One entry of a step's output list (R42). -/
inductive Event where
  /-- `Pixel(x, y, side, color)` (R189): exact screen coordinates, possibly negative. -/
  | pixel (x y : Int) (side : Nat) (color : Color)
  /-- `Diag(kind, target, pc)` (R221): the jump operand and the address of the `JMP` opcode. -/
  | diag (kind : DiagKind) (target pc : Half)
  deriving DecidableEq, Repr

/-- `Fault.kind` (R36). -/
inductive FaultKind where
  | none
  | memFault
  deriving DecidableEq, Repr

/-- The `Fault` record (R36): which operand read first failed its bounds check. -/
structure FaultRecord where
  kind : FaultKind
  pc : BitVec Config.pcBits
  opcode : BitVec Config.opcodeBits
  addr : Half
  deriving DecidableEq, Repr

/-- `Fault` while the core has not faulted (R36): kind `NONE`, every other field 0. -/
def FaultRecord.clear : FaultRecord := ⟨.none, 0, 0, 0⟩

/-- The machine (R30): the registers, the fault record, the two memories; and `trace`, the model's own
field, which holds the concatenated event lists of all steps, oldest first (R42, R280;
notes/assumptions/1.md). -/
structure State where
  /-- `A`, the accumulator (R31). -/
  a : BitVec Config.aBits
  /-- `X`, the index register (R32). -/
  x : BitVec Config.xBits
  /-- `PC`, the program counter, an offset into `CodeMem` (R33). -/
  pc : BitVec Config.pcBits
  /-- `CodeSize`, the halt boundary (R34). -/
  codeSize : BitVec Config.codeSizeBits
  /-- `EntryPoint`, the retained header field, a 32-bit pattern read as signed (R35). -/
  entryPoint : BitVec Config.entryPointBits
  /-- `Fault` (R36). -/
  fault : FaultRecord
  /-- `CodeMem`, 32768 bytes (R40). -/
  codeMem : Memory
  /-- `GfxMem`, 65536 bytes (R41). -/
  gfxMem : Memory
  /-- Every event the steps of this run have emitted, in order (R42). -/
  trace : List Event
  deriving DecidableEq, Repr

/-- Why a step can stop without a next state. No step from a state that power-on reset, the load port
or a step produces stops (R45): a `MemFault` is no such stop but a next state with `Fault` set (R224). -/
inductive Fault where
  /-- Raised by `step` where `PC < CodeSize` and there is no byte at `PC`, so no opcode can be fetched.
  R122 rules this out while `CodeSize <= CODE_MEM_SIZE`, so only states outside R45 reach it. Safe. -/
  | fetchOutOfBounds (pc : Half)
  /-- Raised by the meaning of an undefined opcode where `UNDEF_POLICY` is `fault` (R223); this hardware's
  policy is `nop`, so it is not raised. Safe. -/
  | undefinedOpcode (opcode : Byte)
  deriving DecidableEq, Repr

/-- Why an operation has no meaning. No instruction refuses. -/
inductive Refusal where
  /-- Raised by an arm of `exec` whose instruction has no meaning; no arm raises it. Safe. -/
  | notModelled (mnemonic : String)
  /-- Raised by the load port where a load or a step request was already made: R269 says such a load is
  not a move of the model. Unsafe for a host that reloads (notes/assumptions/5.md). -/
  | loadOutsideReset
  deriving DecidableEq, Repr

/-- Power-on reset (R260): every register 0, `Fault` clear, both memories all zero, no event yet. -/
def State.reset : State where
  a := 0
  x := 0
  pc := 0
  codeSize := 0
  entryPoint := 0
  fault := FaultRecord.clear
  codeMem := []
  gfxMem := []
  trace := []

end Sys2Proof.Machine
end

