-- ==== Sys2Proof/Machine/Memory.lean ====
section
/-! DEFINITION. The byte buffers: reading, writing in the one canonical form, and `writeRange`
(spec/20_memory.md R60 to R66; spec/10_state.md R40, R41). -/

namespace Sys2Proof.Machine

/-- What an address that no cell lists reads as: both buffers are zero-initialised (R40, R41, D20). -/
def Memory.unlisted : Byte := 0

/-- The byte at an offset. Bounds are checked by `memRead` (R64), not here. -/
def Memory.read : Memory → Nat → Byte
  | [], _ => Memory.unlisted
  | (k, v) :: rest, a => if k = a then v else Memory.read rest a

/-- Store one byte, keeping the canonical form: a byte equal to what an unlisted address reads as is
not listed. -/
def Memory.write : Memory → Nat → Byte → Memory
  | [], a, v => if v = Memory.unlisted then [] else [(a, v)]
  | (k, u) :: rest, a, v =>
    if a < k then
      if v = Memory.unlisted then (k, u) :: rest else (a, v) :: (k, u) :: rest
    else if a = k then
      if v = Memory.unlisted then rest else (a, v) :: rest
    else (k, u) :: Memory.write rest a v

/-- The canonical form: addresses strictly rising, and no cell equal to what an unlisted address
reads as. -/
abbrev Memory.wf (m : Memory) : Prop :=
  m.Pairwise (fun c d => c.1 < d.1) ∧ ∀ c ∈ m, c.2 ≠ Memory.unlisted

/-- Every listed cell lies below `limit`. -/
abbrev Memory.below (m : Memory) (limit : Nat) : Prop := ∀ c ∈ m, c.1 < limit

/-- Store `bytes` at consecutive offsets from `start` on. -/
def Memory.writeBytes (m : Memory) (start : Nat) : List Byte → Memory
  | [] => m
  | b :: bs => (m.writeBytes (start + 1) bs).write start b

/-- `writeRange(buffer, startOffset, bytes)` for a buffer of `size` bytes (R66): the source is clamped to
the room from `start` on, and nothing is written past the buffer. -/
def Memory.writeRange (size : Nat) (m : Memory) (start : Nat) (bytes : List Byte) : Memory :=
  m.writeBytes start (bytes.take (size - start))

/-- A 16-bit little-endian value (R65), unchecked. -/
def Memory.read16 (m : Memory) (a : Nat) : Half :=
  le16 (m.read a) (m.read (a + 1))

end Sys2Proof.Machine
end

