-- ==== Sys2Proof/Machine/Ops.lean ====
section
/-! DEFINITION. The shared operations of the step: run status, bounds-checked reads, register writes,
event output, and the one exception, `MemFault` (spec/10_state.md R37, spec/20_memory.md R60 to R65,
spec/40_execution_cycle.md R125, R126, spec/60_exceptions.md R224 to R228). There is no return from an
exception: the faulted state is absorbing (R227, R128). -/

namespace Sys2Proof.Machine

/-! ## Run status -/

/-- The run status (R37). -/
inductive RunStatus where
  | running
  | halted
  | faulted
  deriving DecidableEq, Repr

/-- `status(s)` (R37): the fault test comes before the halt test. -/
def State.status (s : State) : RunStatus :=
  if s.fault.kind = .memFault then .faulted
  else if s.codeSize.toNat ≤ s.pc.toNat then .halted
  else .running

/-! ## Bounds-checked reads -/

/-- The two address spaces (R60). -/
inductive Space where
  | code
  | gfx
  deriving DecidableEq, Repr

/-- `SIZE(space)` (R64). -/
def Space.size : Space → Nat
  | .code => Config.codeMemSize
  | .gfx => Config.gfxMemSize

/-- The buffer behind a space (R60). -/
def State.mem (s : State) : Space → Memory
  | .code => s.codeMem
  | .gfx => s.gfxMem

/-- What a failed bounds check reports (R64): the space and the start offset of the read. -/
structure ReadFault where
  space : Space
  addr : Nat
  deriving DecidableEq, Repr

/-- `n` consecutive bytes of a buffer from `a` on, by rising offset (R12). -/
def readBytes (m : Memory) (a : Nat) : Nat → List Byte
  | 0 => []
  | n + 1 => m.read a :: readBytes m (a + 1) n

/-- `MemRead(space, a, n)` (R64): the bounds check against the buffer's length, then the bytes. -/
def memRead (s : State) (sp : Space) (a n : Nat) : Except ReadFault (List Byte) :=
  if a + n ≤ sp.size then .ok (readBytes (s.mem sp) a n) else .error ⟨sp, a⟩

/-- An instruction's operand reads, in order from `a` on (R97, R125, R228): the bytes of all of them, or
the first read that fails. `CodeSize` is not tested (R103). -/
def readOperands (s : State) (a : Nat) : List Nat → Except ReadFault (List Byte)
  | [] => .ok []
  | n :: ns =>
    match memRead s .code a n with
    | .error e => .error e
    | .ok bs =>
      match readOperands s (a + n) ns with
      | .error e => .error e
      | .ok rest => .ok (bs ++ rest)

/-! ## Register writes and output -/

/-- `PC <- v`. -/
def State.setPc (s : State) (v : BitVec Config.pcBits) : State := { s with pc := v }

/-- `A <- v` (R31). -/
def State.setA (s : State) (v : BitVec Config.aBits) : State := { s with a := v }

/-- `X <- v` (R32). -/
def State.setX (s : State) (v : BitVec Config.xBits) : State := { s with x := v }

/-- `PC <- p + n`, the fall-through offset of an `n`-byte instruction (R125). The sum is exact and is
narrowed to the 16-bit register; it fits wherever R45 holds (notes/assumptions/4.md). -/
def State.advance (s : State) (n : Nat) : State := s.setPc (BitVec.ofNat Config.pcBits (s.pc.toNat + n))

/-- Append a step's events to the output, in order (R42, R126). -/
def State.emit (s : State) (evs : List Event) : State := { s with trace := s.trace ++ evs }

/-! ## The exception -/

/-- `MemFault` entry (R224): `Fault` records the opcode's address, the opcode and the offset of the read
that failed; nothing else changes and no event is emitted. -/
def takeMemFault (s : State) (op : Byte) (addr : Nat) : State :=
  { s with fault := ⟨.memFault, s.pc, op, BitVec.ofNat 16 addr⟩ }

/-- The operand reads of the instruction at `PC`, as the first thing its meaning does (R121, R228): the
first read that fails its bounds check takes `MemFault`, and the instruction commits nothing (R126);
where all are in bounds, `commit` is the instruction's own effect. The operands' values stand in the
decoded instruction (notes/assumptions/2.md). -/
def withOperands (s : State) (op : Byte) (commit : State) : State :=
  match readOperands s (s.pc.toNat + Config.lengthF0) (operandWidths op) with
  | .error e => takeMemFault s op e.addr
  | .ok _ => commit

end Sys2Proof.Machine
end

