-- ==== Sys2Proof/Machine/Control.lean ====
section
/-! DEFINITION. `NOP`, `JMP`, `HALT` and the undefined opcodes (spec/41_data_and_control.md R140, R143 to
R145; spec/60_exceptions.md R221, R223). -/

namespace Sys2Proof.Machine

/-- `NOP` (R140): only `PC <- npc`. -/
def execNop (s : State) : Host.Outcome State Fault Refusal :=
  .next (s.advance Config.lengthF0)

/-- `JMP`'s effect once its target is read (R143, R221): below `CodeSize` (unsigned) the jump is taken;
otherwise the core is halted at `CodeSize` and one diagnostic is emitted. -/
def jumpTo (s : State) (t : Half) : State :=
  if t.toNat < s.codeSize.toNat then s.setPc t
  else (s.setPc s.codeSize).emit [.diag .outOfBoundsJump t s.pc]

/-- `JMP` (R143): the operand's bounds first (R228), then the target. -/
def execJmp (t : Half) (s : State) : Host.Outcome State Fault Refusal :=
  .next (withOperands s 0x04 (jumpTo s t))

/-- `HALT` (R144): `PC <- CodeSize`. -/
def execHalt (s : State) : Host.Outcome State Fault Refusal :=
  .next (s.setPc s.codeSize)

/-- An undefined opcode (R101, R145): a one-byte no-op under `UNDEF_POLICY` = `nop`, this hardware's
setting; a fault of its own under `fault` (R223; notes/assumptions/6.md). -/
def execUndef (op : Byte) (s : State) : Host.Outcome State Fault Refusal :=
  match Config.undefPolicy with
  | .nop => .next (s.advance Config.lengthF0)
  | .fault => .fault (.undefinedOpcode op)

end Sys2Proof.Machine
end

