-- ==== Sys2Proof/Machine/Data.lean ====
section
/-! DEFINITION. The register loads `SET_A` and `SET_X` (spec/41_data_and_control.md R141, R142). The CORE
has no flags (R38), so no meaning writes one. -/

namespace Sys2Proof.Machine

/-- `SET_A` (R141): `A <- imm8`, `PC <- npc + 1`; `MemFault` where the operand byte is past `CODE`. -/
def execSetA (v : Byte) (s : State) : Host.Outcome State Fault Refusal :=
  .next (withOperands s 0x01 ((s.setA v).advance Config.lengthF1))

/-- `SET_X` (R142): `X <- imm16`, all 16 bits, `PC <- npc + 2`; `MemFault` where the operand passes
`CODE`. -/
def execSetX (v : Half) (s : State) : Host.Outcome State Fault Refusal :=
  .next (withOperands s 0x02 ((s.setX v).advance Config.lengthF2))

end Sys2Proof.Machine
end

