-- ==== Sys2Proof/Machine/Draw.lean ====
section
/-! DEFINITION. The tile-bitmap decoder and `DRAW_BTP` (spec/42_draw_btp.md R180 to R196). The decoder is
written as R181's four nested loops with its one early exit; Machine/Layout.lean has the closed form of
R193 and R195. -/

namespace Sys2Proof.Machine

/-- `color(n)` (R188). -/
def colorOf (n : Nibble) : Color := if n = 0 then .unlit else .lit

/-- What a part of the decode did: its events in order, and the data pointer after it, or `none` where
the pointer reached the end of graphics memory and decoding stopped (R186). -/
structure DrawRun where
  events : List Event
  ptr : Option Nat
  deriving DecidableEq, Repr

/-- A loop of the decoder over the values `ns` of its variable: each pass starts at the pointer the one
before it left, and a stop inside a pass ends the loop (R185, R186). -/
def drawLoop (body : Nat → Nat → DrawRun) : List Nat → Nat → DrawRun
  | [], ptr => ⟨[], some ptr⟩
  | n :: ns, ptr =>
    match body n ptr with
    | ⟨evs, none⟩ => ⟨evs, none⟩
    | ⟨evs, some ptr'⟩ => ⟨evs ++ (drawLoop body ns ptr').events, (drawLoop body ns ptr').ptr⟩

/-- The tile corners `0, 8, 16, … while < extent` (R185). -/
def tileCorners (extent : Nat) : List Nat :=
  (List.range ((extent + (Config.tile - 1)) / Config.tile)).map (Config.tile * ·)

/-- The pixel rows of a tile, `py` = 0..7 (R185). -/
def tileRows : List Nat := List.range Config.tile

/-- The pixel pairs of a tile's row, `px` = 0, 2, 4, 6 (R185). -/
def pixelPairs : List Nat :=
  (List.range (Config.tile / Config.pixelsPerByte)).map (Config.pixelsPerByte * ·)

/-- The two events of one data byte (R187 to R190): left then right, in exact integers (R194). -/
def pairEvents (ox oy : Int) (ty tx py px : Nat) (b : Byte) : List Event :=
  [.pixel ((ox + tx + px) * Config.scale) ((oy + ty + py) * Config.scale) Config.scale
      (colorOf (highNibble b)),
    .pixel ((ox + tx + px + 1) * Config.scale) ((oy + ty + py) * Config.scale) Config.scale
      (colorOf (lowNibble b))]

/-- One pixel pair (R186): the pointer is tested against `GFX_MEM_SIZE` before its byte is read. -/
def drawPair (m : Memory) (ox oy : Int) (ty tx py px ptr : Nat) : DrawRun :=
  if Config.gfxMemSize ≤ ptr then ⟨[], none⟩
  else ⟨pairEvents ox oy ty tx py px (m.read ptr), some (ptr + 1)⟩

/-- One tile with its corner at column `tx` and row `ty`: 32 bytes, always whole (R185, R191). -/
def drawTile (m : Memory) (ox oy : Int) (ty tx ptr : Nat) : DrawRun :=
  drawLoop (fun py => drawLoop (drawPair m ox oy ty tx py) pixelPairs) tileRows ptr

/-- The bitmap's declared width (R182). -/
def bitmapWidth (m : Memory) : Nat := (m.read16 0).toNat

/-- The bitmap's declared height (R182). -/
def bitmapHeight (m : Memory) : Nat := (m.read16 2).toNat

/-- All tiles of the bitmap, tile row by tile row from the pointer `ptr` on (R185). -/
def drawTiles (m : Memory) (ox oy : Int) (ptr : Nat) : DrawRun :=
  drawLoop (fun ty => drawLoop (drawTile m ox oy ty) (tileCorners (bitmapWidth m)))
    (tileCorners (bitmapHeight m)) ptr

/-- `Decode(ox, oy)` (R181) over graphics memory `m`. The 4-byte precondition of R183 always holds here;
its branch is kept, as R183 says. -/
def decodeBitmap (m : Memory) (ox oy : Int) : List Event :=
  if Config.gfxMemSize < Config.headerBytes then []
  else (drawTiles m ox oy Config.headerBytes).events

/-- `DRAW_BTP` (R180): `PC <- npc + 4` and the decode's events at the signed origin; `MemFault` where an
operand passes `CODE`, X before Y. A decode past the end of graphics memory is no exception (R222). -/
def execDrawBtp (xraw yraw : Half) (s : State) : Host.Outcome State Fault Refusal :=
  .next (withOperands s 0x08
    ((s.advance Config.lengthF4).emit (decodeBitmap s.gfxMem (sext16 xraw) (sext16 yraw))))

end Sys2Proof.Machine
end

