-- ==== Sys2Proof/Machine/Dispatch.lean ====
section
/-! DEFINITION. One arm per constructor of `Instr`, each a direct call of its meaning
(spec/40_execution_cycle.md R121, R124). -/

namespace Sys2Proof.Machine

/-- Run one decoded instruction at `PC` (R121's `Exec_*`). -/
def exec (i : Instr) (s : State) : Host.Outcome State Fault Refusal :=
  match i with
  | .nop => Sys2Proof.Machine.execNop s
  | .setA v => Sys2Proof.Machine.execSetA v s
  | .setX v => Sys2Proof.Machine.execSetX v s
  | .jmp t => Sys2Proof.Machine.execJmp t s
  | .drawBtp x y => Sys2Proof.Machine.execDrawBtp x y s
  | .halt => Sys2Proof.Machine.execHalt s
  | .undef op => Sys2Proof.Machine.execUndef op s

end Sys2Proof.Machine
end

