-- ==== Sys2Proof/Machine/Fetch.lean ====
section
/-! DEFINITION. Fetching the instruction at `PC` (spec/40_execution_cycle.md R122 to R125), and placing an
instruction where the next step fetches it. -/

namespace Sys2Proof.Machine

/-- The bytes of `CODE` from `a` on, at most `n` of them: as far as the buffer goes (R64). -/
def codeBytes (s : State) (a : Nat) : Nat → List Byte
  | 0 => []
  | n + 1 => if a < Config.codeMemSize then s.codeMem.read a :: codeBytes s (a + 1) n else []

/-- What the decoder finds at `PC`: an instruction with all its bytes, or an instruction whose operand
bytes pass the end of `CODE`, or no opcode byte. Bytes at or past `CodeSize` count like any other
(R103, R125). -/
def fetchInstr (s : State) : Except DecodeError Instr :=
  match decode (codeBytes s s.pc.toNat Config.maxInstrBytes) with
  | .ok (i, _) => .ok i
  | .error e => .error e

/-- Where a program of `Config.maxInstrBytes` bytes can be placed: at `PC`, or at 0 where it would pass
the end of `CODE`. -/
def placeAt (s : State) : Nat :=
  if s.pc.toNat + Config.maxInstrBytes ≤ Config.codeMemSize then s.pc.toNat else 0

/-- `s` with the table word `w` as the instruction of the next step. Stands for the load of a program
(R264, R266): the bytes in `CODE` at `PC`, a `CodeSize` that covers them, and no fault
(notes/assumptions/3.md). -/
def placeWord (s : State) (nbits w : Nat) : State :=
  { s with
    pc := BitVec.ofNat Config.pcBits (placeAt s)
    codeSize := BitVec.ofNat Config.codeSizeBits
      (max s.codeSize.toNat (placeAt s + max Config.lengthF0 ((nbits + 7) / 8)))
    fault := FaultRecord.clear
    codeMem := Memory.writeRange Config.codeMemSize s.codeMem (placeAt s) (wordBytes nbits w) }

end Sys2Proof.Machine
end

