-- ==== Sys2Proof/Machine/Cycle.lean ====
section
/-! DEFINITION. The step procedure of spec/40_execution_cycle.md R121. -/

namespace Sys2Proof.Machine

/-- The step procedure (R121): nothing while faulted (R128) or halted (R127); otherwise the instruction at
`PC`, or `MemFault` where its operand bytes pass the end of `CODE` (R224). -/
def cycle (s : State) : Host.Outcome State Fault Refusal :=
  match s.status with
  | .faulted => .next s
  | .halted => .next s
  | .running =>
    match fetchInstr s with
    | .ok i => exec i s
    | .error (.truncated op start) => .next (takeMemFault s op (s.pc.toNat + start))
    | .error .noOpcode => .fault (.fetchOutOfBounds s.pc)

end Sys2Proof.Machine
end

