-- ==== Sys2Proof/Machine/Step.lean ====
section
/-! DEFINITION. One request on the step port (spec/40_execution_cycle.md R120 to R130). -/

namespace Sys2Proof.Machine

/-- The step (R120, R121). -/
def step (s : State) : Host.Outcome State Fault Refusal := cycle s

/-- `s` with the table word `w` of `nbits` bits where the next step fetches it. -/
def State.withFetchWord (s : State) (nbits w : Nat) : State := placeWord s nbits w

end Sys2Proof.Machine
end

