-- ==== Sys2Proof/Machine/Assembler.lean ====
section
/-! DEFINITION. The assembler notation of spec/30_encoding.md R104 and R105: one instruction or `.byte`
directive a line, labels, comments, decimal and hexadecimal numbers. No rule of the machine depends on
it (D25). A source is a list of characters; a line that does not follow the syntax is an assembly
error (`none`). What R104 leaves open is in notes/assumptions/10.md. -/

namespace Sys2Proof.Machine

/-! ## Characters and tokens -/

/-- Split at every occurrence of `c`. -/
def splitChars (c : Char) : List Char → List (List Char)
  | [] => [[]]
  | d :: ds =>
    if d = c then [] :: splitChars c ds
    else match splitChars c ds with
      | [] => [[d]]
      | t :: ts => (d :: t) :: ts

/-- Space, tab or carriage return. -/
def isBlank (c : Char) : Bool := c = ' ' || c = '\t' || c = '\r'

/-- Drop the blanks at both ends. -/
def trimBlanks (cs : List Char) : List Char :=
  ((cs.dropWhile isBlank).reverse.dropWhile isBlank).reverse

/-- The value of a digit in base 16; letters in either case. -/
def digitValue (c : Char) : Option Nat :=
  if '0'.toNat ≤ c.toNat ∧ c.toNat ≤ '9'.toNat then some (c.toNat - '0'.toNat)
  else if 'a'.toNat ≤ c.toNat ∧ c.toNat ≤ 'f'.toNat then some (c.toNat - 'a'.toNat + 10)
  else if 'A'.toNat ≤ c.toNat ∧ c.toNat ≤ 'F'.toNat then some (c.toNat - 'A'.toNat + 10)
  else none

/-- Digits of a base, most significant first, onto an accumulator. -/
def parseDigits (base : Nat) : List Char → Nat → Option Nat
  | [], acc => some acc
  | c :: cs, acc =>
    match digitValue c with
    | some d => if d < base then parseDigits base cs (acc * base + d) else none
    | none => none

/-- A number: decimal, or hexadecimal with prefix `0x` (R104). -/
def parseNumber : List Char → Option Nat
  | [] => none
  | ['0', 'x'] => none
  | '0' :: 'x' :: ds => parseDigits 16 ds 0
  | ds => parseDigits 10 ds 0

/-- Whether a token is written in hexadecimal. -/
def isHexToken : List Char → Bool
  | '0' :: 'x' :: _ => true
  | _ => false

/-- An operand of `DRAW_BTP` (R104): a signed number in -32768..32767, or a hexadecimal pattern of
16 bits taken raw. -/
def parseOrigin : List Char → Option Half
  | '-' :: ds =>
    match parseNumber ds with
    | some n => if n ≤ 32768 then some (BitVec.ofNat 16 (65536 - n)) else none
    | none => none
  | ds =>
    match parseNumber ds with
    | some n =>
      if n ≤ 32767 ∨ (isHexToken ds = true ∧ n ≤ 65535) then some (BitVec.ofNat 16 n) else none
    | none => none

/-- A byte operand, 0..255; a value outside its range is an error, not truncated (R104). -/
def parseByte (cs : List Char) : Option Byte :=
  match parseNumber cs with
  | some n => if n ≤ 255 then some (BitVec.ofNat 8 n) else none
  | none => none

/-- A 16-bit unsigned operand, 0..65535 (R104). -/
def parseHalf (cs : List Char) : Option Half :=
  match parseNumber cs with
  | some n => if n ≤ 65535 then some (BitVec.ofNat 16 n) else none
  | none => none

/-- A letter or underscore. -/
def isNameStart (c : Char) : Bool := c.isAlpha || c = '_'

/-- A name: a letter or underscore, then letters, digits and underscores. -/
def isName : List Char → Bool
  | [] => false
  | c :: cs => isNameStart c && cs.all fun d => isNameStart d || d.isDigit

/-! ## Statements and lines -/

/-- One statement of a source line. -/
inductive Stmt where
  /-- An instruction whose operands are numbers. -/
  | instr (i : Instr)
  /-- `JMP` to a label. -/
  | jmpLabel (name : List Char)
  /-- The directive `.byte` (R105). -/
  | bytes (bs : List Byte)
  deriving DecidableEq, Repr

/-- How many bytes a statement emits. -/
def stmtSize : Stmt → Nat
  | .instr i => (encode i).length
  | .jmpLabel _ => (encode (.jmp 0)).length
  | .bytes bs => bs.length

/-- All operands of `.byte`, each in 0..255 (R105). -/
def parseBytes : List (List Char) → Option (List Byte)
  | [] => some []
  | t :: ts =>
    match parseByte t, parseBytes ts with
    | some b, some bs => some (b :: bs)
    | _, _ => none

/-- A mnemonic and its operands (R104, R105). Mnemonics are upper case, and there are no others. -/
def parseStmt (mnemonic : List Char) (ops : List (List Char)) : Option Stmt :=
  if mnemonic = ['N', 'O', 'P'] then if ops = [] then some (.instr .nop) else none
  else if mnemonic = ['H', 'A', 'L', 'T'] then if ops = [] then some (.instr .halt) else none
  else if mnemonic = ['S', 'E', 'T', '_', 'A'] then
    match ops with
    | [v] => (parseByte v).map fun b => .instr (.setA b)
    | _ => none
  else if mnemonic = ['S', 'E', 'T', '_', 'X'] then
    match ops with
    | [v] => (parseHalf v).map fun h => .instr (.setX h)
    | _ => none
  else if mnemonic = ['J', 'M', 'P'] then
    match ops with
    | [t] => if isName t then some (.jmpLabel t) else (parseHalf t).map fun h => .instr (.jmp h)
    | _ => none
  else if mnemonic = ['D', 'R', 'A', 'W', '_', 'B', 'T', 'P'] then
    match ops with
    | [x, y] =>
      match parseOrigin x, parseOrigin y with
      | some xr, some yr => some (.instr (.drawBtp xr yr))
      | _, _ => none
    | _ => none
  else if mnemonic = ['.', 'b', 'y', 't', 'e'] then
    if ops = [] then none else (parseBytes ops).map .bytes
  else none

/-- A source line: an optional label and an optional statement. -/
structure SourceLine where
  label : Option (List Char)
  stmt : Option Stmt
  deriving DecidableEq, Repr

/-- The comma-separated operands of a statement; no text at all is no operand. -/
def splitOperands (cs : List Char) : List (List Char) :=
  if trimBlanks cs = [] then [] else (splitChars ',' cs).map trimBlanks

/-- The statement part of a line: empty, or a mnemonic, blanks and operands. -/
def parseStmtText (cs : List Char) : Option (Option Stmt) :=
  match trimBlanks cs with
  | [] => some none
  | text =>
    match parseStmt (text.takeWhile (!isBlank ·)) (splitOperands (text.dropWhile (!isBlank ·))) with
    | some st => some (some st)
    | none => none

/-- One line: the comment from `;` on is dropped; a label is `name:` at its start (R104). -/
def parseLine (cs : List Char) : Option SourceLine :=
  match splitChars ':' (cs.takeWhile (· ≠ ';')) with
  | [text] =>
    match parseStmtText text with
    | some st => some ⟨none, st⟩
    | none => none
  | [name, text] =>
    if isName name then
      match parseStmtText text with
      | some st => some ⟨some name, st⟩
      | none => none
    else none
  | _ => none

/-- All lines of a source, or an error in one of them. -/
def parseLines : List (List Char) → Option (List SourceLine)
  | [] => some []
  | cs :: rest =>
    match parseLine cs, parseLines rest with
    | some l, some ls => some (l :: ls)
    | _, _ => none

/-! ## Assembling -/

/-- The bytes a line emits. -/
def lineSize (l : SourceLine) : Nat :=
  match l.stmt with
  | some st => stmtSize st
  | none => 0

/-- Each label with its value: the `CODE` offset of the next byte emitted (R104). -/
def labelTable : List SourceLine → Nat → List (List Char × Nat)
  | [], _ => []
  | l :: ls, off =>
    match l.label with
    | some n => (n, off) :: labelTable ls (off + lineSize l)
    | none => labelTable ls (off + lineSize l)

/-- The bytes of a statement; a label's value must fit the 16-bit target. -/
def emitStmt (labels : List (List Char × Nat)) : Stmt → Option (List Byte)
  | .instr i => some (encode i)
  | .bytes bs => some bs
  | .jmpLabel n =>
    match labels.find? (·.1 = n) with
    | some (_, v) => if v ≤ 65535 then some (encode (.jmp (BitVec.ofNat 16 v))) else none
    | none => none

/-- The bytes of all lines, in order. -/
def emitLines (labels : List (List Char × Nat)) : List SourceLine → Option (List Byte)
  | [] => some []
  | l :: ls =>
    match l.stmt with
    | none => emitLines labels ls
    | some st =>
      match emitStmt labels st, emitLines labels ls with
      | some bs, some rest => some (bs ++ rest)
      | _, _ => none

/-- Assemble a source text (R104, R105). -/
def assemble (source : List Char) : Option (List Byte) :=
  match parseLines (splitChars '\n' source) with
  | none => none
  | some ls =>
    if ((labelTable ls 0).map (·.1)).Nodup then emitLines (labelTable ls 0) ls else none

end Sys2Proof.Machine
end

