-- ==== Sys2Proof/Machine/Layout.lean ====
section
/-! DEFINITION. The closed form of the decoder's output and of the bitmap's layout
(spec/42_draw_btp.md R193, R195). The machine runs Machine/Draw.lean's loops; statements compare the two. -/

namespace Sys2Proof.Machine

/-- `ceil(extent / 8)`: `TW` from the width, `TH` from the height (R193). -/
def tilesAcross (extent : Nat) : Nat := (extent + (Config.tile - 1)) / Config.tile

/-- Bytes of one tile: 32 (R185). -/
def tileBytes : Nat := Config.tile * (Config.tile / Config.pixelsPerByte)

/-- `N`, the data bytes one decode reads (R193). -/
def dataBytes (m : Memory) : Nat :=
  min (tileBytes * tilesAcross (bitmapWidth m) * tilesAcross (bitmapHeight m))
    (Config.gfxMemSize - Config.headerBytes)

/-- `off`, the graphics offset of the byte that holds the pixel at column `cx`, row `cy` of a bitmap of
`tw` tiles a row (R195). -/
def layoutOffset (tw cx cy : Nat) : Nat :=
  Config.headerBytes + tileBytes * (cy / Config.tile * tw + cx / Config.tile)
    + Config.tile / Config.pixelsPerByte * (cy % Config.tile) + cx % Config.tile / Config.pixelsPerByte

/-- `nib`, the intensity of the pixel at column `cx`, row `cy` (R195). -/
def layoutNibble (m : Memory) (tw cx cy : Nat) : Nibble :=
  if cx % 2 = 0 then highNibble (m.read (layoutOffset tw cx cy))
  else lowNibble (m.read (layoutOffset tw cx cy))

/-- The bitmap column of the left pixel of data byte `k` (R195 read backwards). -/
def byteColumn (tw k : Nat) : Nat :=
  Config.tile * (k / tileBytes % tw) + Config.pixelsPerByte * (k % (Config.tile / Config.pixelsPerByte))

/-- The bitmap row of data byte `k` (R195 read backwards). -/
def byteRow (tw k : Nat) : Nat :=
  Config.tile * (k / tileBytes / tw) + k % tileBytes / (Config.tile / Config.pixelsPerByte)

/-- The event of the pixel at column `cx`, row `cy`, whose position is R189's and whose colour is that of
R195's nibble. -/
def layoutPixel (m : Memory) (ox oy : Int) (tw cx cy : Nat) : Event :=
  .pixel ((ox + cx) * Config.scale) ((oy + cy) * Config.scale) Config.scale
    (colorOf (layoutNibble m tw cx cy))

/-- The decode's event list in closed form: for each data byte `k < N` in order, the left pixel, then the
right (R185, R190, R193, R195). -/
def layoutEvents (m : Memory) (ox oy : Int) : List Event :=
  (List.range (dataBytes m)).flatMap fun k =>
    [layoutPixel m ox oy (tilesAcross (bitmapWidth m)) (byteColumn (tilesAcross (bitmapWidth m)) k)
        (byteRow (tilesAcross (bitmapWidth m)) k),
      layoutPixel m ox oy (tilesAcross (bitmapWidth m))
        (byteColumn (tilesAcross (bitmapWidth m)) k + 1) (byteRow (tilesAcross (bitmapWidth m)) k)]

/-- An event moved by `(dx, dy)` screen units (R196); a diagnostic has no place and stays. -/
def Event.shift (dx dy : Int) : Event → Event
  | .pixel x y side color => .pixel (x + dx) (y + dy) side color
  | .diag kind target pc => .diag kind target pc

end Sys2Proof.Machine
end

