-- ==== Sys2Proof/Machine/Load.lean ====
section
/-! DEFINITION. What a load does, and the boot order (spec/70_reset_and_hazards.md R261 to R268, R271). When
the host may load is in Machine/Ports.lean (R269). -/

namespace Sys2Proof.Machine

/-- What the load port returns (R14, R220); `fileNotFound` is the host's, before the port is used
(R262). -/
inductive LoadResult where
  | ok
  | fileNotFound
  | invalidFormat (tag : List Byte)
  | truncatedImage
  | invalidLength
  deriving DecidableEq, Repr

/-- The numeric code of a load result (R220). -/
def loadResultCode : LoadResult → Nat
  | .ok => 0
  | .fileNotFound => 1
  | .invalidFormat _ => 2
  | .truncatedImage => 3
  | .invalidLength => 4

/-- The cartridge header's three integers (R263). -/
structure CartHeader where
  entryPoint : Long
  codeLength : Long
  gfxLength : Long
  deriving DecidableEq, Repr

/-- Byte `k` of the stream; only offsets below its length are read. -/
def streamByte (S : List Byte) (k : Nat) : Byte := S.getD k 0

/-- The little-endian 32-bit field of the stream at offset `k` (R67, R263). -/
def streamLong (S : List Byte) (k : Nat) : Long :=
  le32 (streamByte S k) (streamByte S (k + 1)) (streamByte S (k + 2)) (streamByte S (k + 3))

/-- The header fields at stream offsets 10, 14 and 18 (R263). -/
def cartHeader (S : List Byte) : CartHeader :=
  ⟨streamLong S Config.entryPointOffset, streamLong S Config.codeLengthOffset,
    streamLong S Config.gfxLengthOffset⟩

/-- `C` (R261), as a natural number; only where it is not negative does a load use it. -/
def codeLength (S : List Byte) : Nat := (signed32 (cartHeader S).codeLength).toNat

/-- `G` (R261), as a natural number; only where it is not negative does a load use it. -/
def gfxLength (S : List Byte) : Nat := (signed32 (cartHeader S).gfxLength).toNat

/-- The load result the stream earns, by R261's checks in their order; no check writes anything. -/
def loadResult (S : List Byte) : LoadResult :=
  if S.length < Config.magic.length then .invalidFormat S
  else if S.take Config.magic.length ≠ Config.magic then .invalidFormat (S.take Config.magic.length)
  else if S.length < Config.cartHeaderBytes then .truncatedImage
  else if signed32 (cartHeader S).codeLength < 0 ∨ signed32 (cartHeader S).gfxLength < 0 then
    .invalidLength
  else if S.length < Config.cartHeaderBytes + codeLength S + gfxLength S then .truncatedImage
  else .ok

/-- The code payload: the `C` bytes at stream offset 22 (R264). -/
def codePayload (S : List Byte) : List Byte := (S.drop Config.cartHeaderBytes).take (codeLength S)

/-- The graphics payload: the `G` bytes at stream offset `22 + C` (R265). -/
def gfxPayload (S : List Byte) : List Byte :=
  (S.drop (Config.cartHeaderBytes + codeLength S)).take (gfxLength S)

/-- What a successful load writes (R264 to R266): both payloads, clamped to their buffers, `CodeSize`,
`PC` and `EntryPoint`; `A`, `X` and `Fault` stay. -/
def commitLoad (S : List Byte) (s : State) : State :=
  { s with
    codeMem := Memory.writeRange Config.codeMemSize s.codeMem 0 (codePayload S)
    gfxMem := Memory.writeRange Config.gfxMemSize s.gfxMem 0 (gfxPayload S)
    codeSize := BitVec.ofNat Config.codeSizeBits (min (codeLength S) Config.codeMemSize)
    pc := 0
    entryPoint := (cartHeader S).entryPoint }

/-- `Load(S, L)` (R261): all or nothing; a failed load changes no state (R267). -/
def loadImage (S : List Byte) (s : State) : State × LoadResult :=
  match loadResult S with
  | .ok => (commitLoad S s, .ok)
  | r => (s, r)

/-- The boot order (R271): power-on reset, then the cartridge. `none` is a path that does not resolve:
nothing reaches the core (R262). -/
def boot : Option (List Byte) → State × LoadResult
  | none => (State.reset, .fileNotFound)
  | some S => loadImage S State.reset

end Sys2Proof.Machine
end

