-- ==== Sys2Proof/Machine/Ports.lean ====
section
/-! DEFINITION. What the host sees and may do: the ports and the requests on them, the numeric codes of
conditions, and the frame loop that drives the core (spec/00_scope.md R14, spec/10_state.md R44,
spec/60_exceptions.md R220, spec/70_reset_and_hazards.md R269, R272 to R280). The frame loop is host
software (R3); it is here as the contract R272 writes out. -/

namespace Sys2Proof.Machine

/-- What the inspect port returns (R44). -/
structure Inspection where
  a : Byte
  x : Half
  pc : Half
  codeSize : Half
  entryPoint : Int
  fault : FaultRecord
  status : RunStatus
  deriving DecidableEq, Repr

/-- The inspect port (R44): it reads, and changes nothing. -/
def inspect (s : State) : Inspection :=
  ⟨s.a, s.x, s.pc, s.codeSize, signed32 s.entryPoint, s.fault, s.status⟩

/-- `Fault.kind`'s numeric code, one bit (R36, R220). -/
def faultKindCode : FaultKind → BitVec 1
  | .none => 0
  | .memFault => 1

/-- A diagnostic kind's numeric code (R220). -/
def diagKindCode : DiagKind → Nat
  | .outOfBoundsJump => 1

/-- The step port's response (R120): the run status after the step and the step's own events. -/
structure StepResponse where
  status : RunStatus
  events : List Event
  deriving DecidableEq, Repr

/-- The events that `after` has beyond `before`: what the steps between them emitted (R42). -/
def eventsSince (before after : State) : List Event := after.trace.drop before.trace.length

/-- Whether an event leaves on the pixel-out port (R14, R42). -/
def isPixel : Event → Bool
  | .pixel _ _ _ _ => true
  | .diag _ _ _ => false

/-- The pixel-out port: the pixel events of a list, in order (R14, R42). -/
def pixelOut (evs : List Event) : List Event := evs.filter isPixel

/-- The diagnostic-out port: the other events of a list, in order (R14, R42). -/
def diagOut (evs : List Event) : List Event := evs.filter (!isPixel ·)

/-! ## The host's requests -/

/-- The core as the host drives it. `loadOpen` says that the load port may still be used: no load and no
step request has been made since power-on reset (R269, R279). It records the host's use of the ports and
is no state of the core, which R30 closes. DESIGN CHOICE (notes/assumptions/5.md). -/
structure Session where
  core : State
  loadOpen : Bool
  deriving DecidableEq, Repr

/-- Power-on reset (R260): the core in its reset state, and the load port open. -/
def powerOn : Session := ⟨State.reset, true⟩

/-- The load port (R269): at most once, in the power-on reset state, before the first step; any other
load is not a move of the model, and is refused by name. The one load uses the port up whatever its
result. DESIGN CHOICE in what counts as a use of the port: R269 leaves what a second load does unsaid
(notes/assumptions/5.md). -/
def loadPort (S : List Byte) (h : Session) : Host.Outcome (Session × LoadResult) Fault Refusal :=
  if h.loadOpen = true ∧ h.core = State.reset then
    .next (⟨(loadImage S h.core).1, false⟩, (loadImage S h.core).2)
  else .refused .loadOutsideReset

/-- One request on the step port (R120, R279): the response and the session after it, in which the load
port is closed (R269). -/
def stepPort (h : Session) : Host.Outcome (Session × StepResponse) Fault Refusal :=
  match step h.core with
  | .next t => .next (⟨t, false⟩, ⟨t.status, eventsSince h.core t⟩)
  | .fault r => .fault r
  | .refused r => .refused r

/-- The host's interactions with the core (R279): these and no others. -/
inductive HostRequest where
  | load (S : List Byte)
  | step
  | inspect
  | close
  deriving DecidableEq, Repr

/-- What the core returns to a request (R279); a close request gets nothing. -/
inductive HostResponse where
  | loaded (result : LoadResult)
  | stepped (response : StepResponse)
  | inspected (values : Inspection)
  | nothing
  deriving DecidableEq, Repr

/-- One request of the host (R279). A close request ends the host's own loop and changes nothing in the
core (R275). -/
def hostPort (q : HostRequest) (h : Session) : Host.Outcome (Session × HostResponse) Fault Refusal :=
  match q with
  | .load S =>
    match loadPort S h with
    | .next (k, r) => .next (k, .loaded r)
    | .fault e => .fault e
    | .refused e => .refused e
  | .step =>
    match stepPort h with
    | .next (k, r) => .next (k, .stepped r)
    | .fault e => .fault e
    | .refused e => .refused e
  | .inspect => .next (h, .inspected (inspect h.core))
  | .close => .next (h, .nothing)

/-- The host's requests in order, up to the first that has no answer. -/
def hostRun : List HostRequest → Session → Host.Outcome (Session × List HostResponse) Fault Refusal
  | [], h => .next (h, [])
  | q :: qs, h =>
    match hostPort q h with
    | .next (k, r) =>
      match hostRun qs k with
      | .next (l, rs) => .next (l, r :: rs)
      | .fault e => .fault e
      | .refused e => .refused e
    | .fault e => .fault e
    | .refused e => .refused e

/-! ## The frame loop -/

/-- At most `quota` steps, and none once the core is not running (R130, R272). -/
def frameSteps : Nat → State → Host.Outcome State Fault Refusal
  | 0, s => .next s
  | quota + 1, s =>
    if s.status = .running then
      match step s with
      | .next t => frameSteps quota t
      | o => o
    else .next s

/-- One frame: the steps of one tick (R272). -/
def frame (s : State) : Host.Outcome State Fault Refusal := frameSteps Config.stepsPerFrame s

/-- What the render pass after the steps from `before` to `after` presents: their pixel events, in step
order, then in each step's order (R273). -/
def presented (before after : State) : List Event := pixelOut (eventsSince before after)

/-- The host loop over `n` frames, after which the host's close request ends it (R272, R275); the render
passes and the wait for the next tick change no state of the core. -/
def hostLoop : Nat → State → Host.Outcome State Fault Refusal
  | 0, s => .next s
  | n + 1, s =>
    match frame s with
    | .next t => hostLoop n t
    | o => o

end Sys2Proof.Machine
end

