-- ==== Sys2Proof/Safety.lean ====
section
/-! DEFINITION. The terms claims are stated in: the invariant of every state that reset, the load port or
a step produces (spec/10_state.md R36, R40, R41, R45), the loaded state's premises
(spec/70_reset_and_hazards.md R281), and the end of a run (R280). -/

namespace Sys2Proof

open Machine

/-- What R36 says of the fault record, in a state `s`: clear while the kind is `NONE`; otherwise it names
the instruction at `PC` (R226), an opcode that has operands, and the offset of the read that failed. -/
abbrev faultRecordWf (s : State) : Prop :=
  (s.fault.kind = .none → s.fault = FaultRecord.clear) ∧
  (s.fault.kind = .memFault →
    s.fault.pc = s.pc ∧ s.pc.toNat < s.codeSize.toNat ∧
    s.fault.opcode = s.codeMem.read s.pc.toNat ∧
    s.fault.opcode ∈ ([0x01, 0x02, 0x04, 0x08] : List Byte) ∧
    (s.fault.addr.toNat = Config.codeMemSize - 1 ∨ s.fault.addr.toNat = Config.codeMemSize))

/-- R224's table of the operand reads that fail: the opcode, the address of the opcode byte, and the
recorded offset. -/
def memFaultTable : List (Byte × Nat × Nat) :=
  [(0x01, 32767, 32768), (0x02, 32766, 32767), (0x02, 32767, 32768), (0x04, 32766, 32767),
    (0x04, 32767, 32768), (0x08, 32764, 32767), (0x08, 32765, 32768), (0x08, 32766, 32767),
    (0x08, 32767, 32768)]

/-- The invariant (R45, with R36, R40 and R41): `CodeSize` and `PC` are at most `CODE_MEM_SIZE`; both
memories have the canonical form and lie in their buffers, `CodeMem` holding 0 from `CodeSize` on; and
the fault record is as R36 says. -/
abbrev StateInv (s : State) : Prop :=
  s.codeSize.toNat ≤ Config.codeMemSize ∧ s.pc.toNat ≤ Config.codeMemSize ∧
  s.codeMem.wf ∧ s.codeMem.below s.codeSize.toNat ∧
  s.gfxMem.wf ∧ s.gfxMem.below Config.gfxMemSize ∧
  faultRecordWf s

/-- The premises every claim may take after a successful load of `S` and before the first step (R281). -/
abbrev LoadedFrom (S : List Byte) (s : State) : Prop :=
  s.fault = FaultRecord.clear ∧ s.pc = 0 ∧ s.a = 0 ∧ s.x = 0 ∧
  s.codeSize.toNat = min (codeLength S) Config.codeMemSize ∧
  (∀ i, s.codeMem.read i =
    if i < s.codeSize.toNat then streamByte S (Config.cartHeaderBytes + i) else 0) ∧
  (∀ i, s.gfxMem.read i =
    if i < min (gfxLength S) Config.gfxMemSize then
      streamByte S (Config.cartHeaderBytes + codeLength S + i) else 0) ∧
  s.trace = []

/-- The header's three integers at their stream offsets, little-endian (R263): `E` at 10, `C` at 14 and `G`
at 18, each of four bytes. -/
abbrev HeaderLayout (S : List Byte) : Prop :=
  ∀ (k : Nat) (v : Long),
    (k, v) ∈ [(10, (cartHeader S).entryPoint), (14, (cartHeader S).codeLength),
      (18, (cartHeader S).gfxLength)] →
    v.toNat = (S.getD k 0).toNat + 2 ^ 8 * (S.getD (k + 1) 0).toNat +
      2 ^ 16 * (S.getD (k + 2) 0).toNat + 2 ^ 24 * (S.getD (k + 3) 0).toNat

/-- The requests the host may make in all (R269, R279): a load, if any, has only inspect and close requests
before it, so it is the only load and comes before the first step. -/
abbrev LoadsOnceFirst (reqs : List HostRequest) : Prop :=
  ∀ pre S post, reqs = pre ++ .load S :: post → ∀ q ∈ pre, q = .inspect ∨ q = .close

/-- A run has ended: the core is not running (R280). -/
abbrev Ended (s : State) : Prop := s.status ≠ .running

/-- The result of an ended run: what the inspect port reads, and the trace (R280). -/
def runResult (s : State) : Machine.Inspection × List Machine.Event := (inspect s, s.trace)

/-- `n` step requests in a row, from `s` (R130, R279), ending early only where a step has no next
state. -/
def steps : Nat → State → Host.Outcome State Fault Refusal
  | 0, s => .next s
  | n + 1, s =>
    match step s with
    | .next t => steps n t
    | .fault r => .fault r
    | .refused r => .refused r

end Sys2Proof
end

