-- ==== Sys2Proof/Certificates/Slice0/Obligations.lean ====
section
/-! DEFINITION. The statements for the provers. Each says which rule or section of spec/ it formalises;
where it rests on a decision or a derivation that the spec marks as its own, or on a choice of the
model, its docstring says so. -/

open Sys2Proof Sys2Proof.Machine

/-! ## What each instruction does -/

/-- R140. `NOP` is the byte 0x00; it changes only `PC`, to the next offset; at `CodeSize - 1` it halts the
core; a byte 0 at `PC` runs as `NOP`; and though every byte at or past `CodeSize` is 0, none is run. -/
def Obligations.NopOnlyAdvancesPc : Prop :=
  (∀ rest, decode (0x00 :: rest) = .ok (.nop, rest)) ∧
  (∀ s : State, s.pc.toNat < Config.codeMemSize →
    exec .nop s = .next { s with pc := BitVec.ofNat 16 (s.pc.toNat + 1) }) ∧
  (∀ s : State, s.fault.kind = .none → s.pc.toNat + 1 = s.codeSize.toNat →
    exec .nop s = .next { s with pc := s.codeSize } ∧
      ({ s with pc := s.codeSize } : State).status = .halted) ∧
  (∀ s : State, StateInv s → s.status = .running → s.codeMem.read s.pc.toNat = 0 →
    step s = .next { s with pc := BitVec.ofNat 16 (s.pc.toNat + 1) }) ∧
  (∀ s : State, StateInv s → ∀ a, s.codeSize.toNat ≤ a → s.codeMem.read a = 0) ∧
  (∀ s : State, s.codeSize.toNat ≤ s.pc.toNat → step s = .next s)

/-- R141. `SET_A` writes its operand byte to `A` and `PC + 2` to `PC`, and nothing else; with its operand
past `CODE` it raises `MemFault` with `A` and `PC` unchanged; at `CodeSize - 1` its operand is 0 and it
ends halted past `CodeSize`. -/
def Obligations.SetALoadsTheAccumulator : Prop :=
  (∀ v rest, decode (0x01 :: v :: rest) = .ok (.setA v, rest)) ∧
  (∀ (v : Byte) (s : State), s.pc.toNat + 1 < Config.codeMemSize →
    exec (.setA v) s = .next { s with a := v, pc := BitVec.ofNat 16 (s.pc.toNat + 2) }) ∧
  (∀ (v : Byte) (s : State), Config.codeMemSize ≤ s.pc.toNat + 1 →
    ∃ t, exec (.setA v) s = .next t ∧ t.fault.kind = .memFault ∧ t.a = s.a ∧ t.pc = s.pc) ∧
  (∀ s : State, StateInv s → s.status = .running → s.codeMem.read s.pc.toNat = 0x01 →
    s.pc.toNat + 1 = s.codeSize.toNat → s.codeSize.toNat < Config.codeMemSize →
    ∃ t, step s = .next t ∧ t = { s with a := 0, pc := t.pc } ∧
      t.pc.toNat = s.codeSize.toNat + 1 ∧ t.status = .halted)

/-- R142. `SET_X` writes all 16 bits of its little-endian operand to `X` and `PC + 3` to `PC`, and nothing
else; with its operand past `CODE` it raises `MemFault` with `X` and `PC` unchanged; operand bytes at or
past `CodeSize` are 0, and it then ends halted past `CodeSize`. -/
def Obligations.SetXLoadsTheIndexRegister : Prop :=
  (∀ b0 b1 rest, ∃ v : Half, decode (0x02 :: b0 :: b1 :: rest) = .ok (.setX v, rest) ∧
    v.toNat = b0.toNat + 256 * b1.toNat) ∧
  (∀ (v : Half) (s : State), s.pc.toNat + 2 < Config.codeMemSize →
    exec (.setX v) s = .next { s with x := v, pc := BitVec.ofNat 16 (s.pc.toNat + 3) }) ∧
  (∀ (v : Half) (s : State), Config.codeMemSize ≤ s.pc.toNat + 2 →
    ∃ t, exec (.setX v) s = .next t ∧ t.fault.kind = .memFault ∧ t.x = s.x ∧ t.pc = s.pc) ∧
  (∀ s : State, StateInv s → s.status = .running → s.codeMem.read s.pc.toNat = 0x02 →
    s.pc.toNat + 2 < Config.codeMemSize → s.codeSize.toNat ≤ s.pc.toNat + 2 →
    ∃ t, step s = .next t ∧ t = { s with x := t.x, pc := t.pc } ∧
      t.x.toNat = (if s.pc.toNat + 1 < s.codeSize.toNat
        then (s.codeMem.read (s.pc.toNat + 1)).toNat else 0) ∧
      t.pc.toNat = s.pc.toNat + 3 ∧ t.status = .halted)

/-- spec/41_data_and_control.md, JMP. The event's fields are the spec's decision D14, and what `MemFault`
records its decision D6. A target below `CodeSize` becomes `PC`; any other halts the core at `CodeSize`
with one diagnostic; an operand past `CODE` faults first, with no diagnostic. Nothing else changes. -/
def Obligations.JmpJumpsOrHaltsWithADiagnostic : Prop :=
  (∀ b0 b1 rest, ∃ t : Half, decode (0x04 :: b0 :: b1 :: rest) = .ok (.jmp t, rest) ∧
    t.toNat = b0.toNat + 256 * b1.toNat) ∧
  (∀ (t : Half) (s : State), s.pc.toNat + 2 < Config.codeMemSize → t.toNat < s.codeSize.toNat →
    exec (.jmp t) s = .next { s with pc := t }) ∧
  (∀ (t : Half) (s : State), s.pc.toNat + 2 < Config.codeMemSize → s.codeSize.toNat ≤ t.toNat →
    exec (.jmp t) s = .next { s with
      pc := s.codeSize, trace := s.trace ++ [.diag .outOfBoundsJump t s.pc] }) ∧
  (∀ (t : Half) (s : State), Config.codeMemSize ≤ s.pc.toNat + 2 →
    ∃ f, exec (.jmp t) s = .next { s with fault := f } ∧ f.kind = .memFault)

/-- spec/41_data_and_control.md, JMP, corner case of a jump to itself: the core stays running in the same
state for any number of steps. -/
def Obligations.JmpToItselfRunsForever : Prop :=
  ∀ (s : State) (n : Nat), s.status = .running → fetchInstr s = .ok (.jmp s.pc) →
    s.pc.toNat + 2 < Config.codeMemSize → steps n s = .next s

/-- R144. `HALT` is the byte 0xFF; it writes `CodeSize` to `PC` and nothing else; an unfaulted core is then
halted and no later step changes anything; and at `CodeSize - 1` it does what falling off the end does. -/
def Obligations.HaltStopsAtCodeSize : Prop :=
  (∀ rest, decode (0xFF :: rest) = .ok (.halt, rest)) ∧
  (∀ s : State, exec .halt s = .next { s with pc := s.codeSize }) ∧
  (∀ (s : State) (n : Nat), s.fault.kind = .none →
    ({ s with pc := s.codeSize } : State).status = .halted ∧
      steps n { s with pc := s.codeSize } = .next { s with pc := s.codeSize }) ∧
  (∀ s : State, s.pc.toNat + 1 = s.codeSize.toNat → exec .halt s = exec .nop s)

/-- spec/41_data_and_control.md, undefined opcodes, and the spec's decision D9 (`UNDEF_POLICY` = `nop`;
notes/assumptions/6.md). Each of the 250 other byte values is a one-byte instruction that does what `NOP`
does. -/
def Obligations.UndefinedOpcodeActsAsNop : Prop :=
  ∀ op : Byte, op ∉ definedOpcodes →
    (∀ rest, decode (op :: rest) = .ok (.undef op, rest)) ∧
    (∀ s : State, s.pc.toNat < Config.codeMemSize →
      exec (.undef op) s = .next { s with pc := BitVec.ofNat 16 (s.pc.toNat + 1) }) ∧
    (∀ s : State, exec (.undef op) s = exec .nop s)

/-- spec/42_draw_btp.md, DRAW_BTP, with the spec's decisions D5 (two's complement) and D6. X is the first
operand; the event list is the decode at the signed origin, appended in order; `PC + 5`; nothing else
changes. An operand past `CODE` faults with no event and `PC` unchanged. -/
def Obligations.DrawBtpEmitsTheDecode : Prop :=
  (∀ b0 b1 b2 b3 rest, ∃ x y : Half,
    decode (0x08 :: b0 :: b1 :: b2 :: b3 :: rest) = .ok (.drawBtp x y, rest) ∧
    x.toNat = b0.toNat + 256 * b1.toNat ∧ y.toNat = b2.toNat + 256 * b3.toNat) ∧
  (∀ (x y : Half) (s : State), s.pc.toNat + 4 < Config.codeMemSize →
    exec (.drawBtp x y) s = .next { s with
      pc := BitVec.ofNat 16 (s.pc.toNat + 5)
      trace := s.trace ++ decodeBitmap s.gfxMem x.toInt y.toInt }) ∧
  (∀ (x y : Half) (s : State), Config.codeMemSize ≤ s.pc.toNat + 4 →
    ∃ f, exec (.drawBtp x y) s = .next { s with fault := f } ∧ f.kind = .memFault)

/-! ## The exception -/

/-- spec/60_exceptions.md section 1, R224's table, by each instruction's own meaning; what is recorded is
the spec's decision D6. Each row takes `MemFault`: the four fields of `Fault` are written and nothing
else changes. -/
def Obligations.MeaningTakesMemFaultByTheTable : Prop :=
  ∀ (s : State) (v : Byte) (h k : Half) (p addr : Nat), s.pc.toNat = p →
    ((0x01, p, addr) ∈ memFaultTable →
      exec (.setA v) s = .next { s with fault := ⟨.memFault, s.pc, 0x01, BitVec.ofNat 16 addr⟩ }) ∧
    ((0x02, p, addr) ∈ memFaultTable →
      exec (.setX h) s = .next { s with fault := ⟨.memFault, s.pc, 0x02, BitVec.ofNat 16 addr⟩ }) ∧
    ((0x04, p, addr) ∈ memFaultTable →
      exec (.jmp h) s = .next { s with fault := ⟨.memFault, s.pc, 0x04, BitVec.ofNat 16 addr⟩ }) ∧
    ((0x08, p, addr) ∈ memFaultTable →
      exec (.drawBtp h k) s =
        .next { s with fault := ⟨.memFault, s.pc, 0x08, BitVec.ofNat 16 addr⟩ })

/-- spec/60_exceptions.md section 1, R224's table, by the step; the spec's decision D6. A running core
takes `MemFault` exactly in the rows of the table, and then writes only `Fault`, as the row says. -/
def Obligations.StepTakesMemFaultExactlyByTheTable : Prop :=
  ∀ s t : State, StateInv s → s.status = .running → step s = .next t →
    (t.fault.kind = .memFault ↔
      ∃ addr, (s.codeMem.read s.pc.toNat, s.pc.toNat, addr) ∈ memFaultTable) ∧
    (∀ addr, (s.codeMem.read s.pc.toNat, s.pc.toNat, addr) ∈ memFaultTable →
      t = { s with fault :=
        ⟨.memFault, s.pc, s.codeMem.read s.pc.toNat, BitVec.ofNat 16 addr⟩ })

/-- spec/60_exceptions.md section 2 (precise exceptions) and spec/40_execution_cycle.md, Commit; the spec's
decision D6. A step that changes `Fault` changes nothing else, and it starts from an unfaulted core. -/
def Obligations.MemFaultCommitsNothingElse : Prop :=
  ∀ s t : State, step s = .next t → t.fault ≠ s.fault →
    t = { s with fault := t.fault } ∧ t.fault.kind = .memFault ∧ s.fault.kind = .none

/-! ## The step -/

/-- The step runs the decoded instruction (spec/40_execution_cycle.md, the step procedure): while the core
is running and the bytes of `CODE` at `PC` decode to `i`, the step is `exec i`, with nothing added. -/
def Obligations.StepRunsTheDecodedInstruction : Prop :=
  ∀ (s : State) (i : Instr) (rest : List Byte), s.status = .running →
    decode (codeBytes s s.pc.toNat Config.maxInstrBytes) = .ok (i, rest) → step s = exec i s

/-- The step runs the instruction whose encoding stands in `CODE` at `PC` (spec/30_encoding.md section 1
and spec/40_execution_cycle.md), whatever bytes stand after it. -/
def Obligations.StepRunsTheInstructionInMemory : Prop :=
  ∀ (s : State) (i : Instr), s.status = .running → i.wf = true →
    s.pc.toNat + (encode i).length ≤ Config.codeMemSize →
    readBytes s.codeMem s.pc.toNat (encode i).length = encode i → step s = exec i s

/-- The status function of spec/10_state.md section 2; `FAULTED` and its precedence are the spec's
decisions D6 and D8. -/
def Obligations.StatusTestsFaultThenHalt : Prop :=
  ∀ s : State,
    (s.fault.kind = .memFault → s.status = .faulted) ∧
    (s.fault.kind = .none → s.codeSize.toNat ≤ s.pc.toNat → s.status = .halted) ∧
    (s.fault.kind = .none → s.pc.toNat < s.codeSize.toNat → s.status = .running)

/-- spec/40_execution_cycle.md, halted and faulted are absorbing (the spec's decisions D7 and D8): once
the core is not running, no number of step requests changes anything or emits an event. -/
def Obligations.EndedCoreNeverChanges : Prop :=
  ∀ (s : State) (n : Nat), Ended s → steps n s = .next s

/-- spec/10_state.md section 2, the values of `PC` after a committed step (the 16-bit width is the spec's
decision D2): `CodeSize` after `HALT`, the target or `CodeSize` after `JMP`, and otherwise the offset
after the instruction's last byte, its length being that of its opcode. -/
def Obligations.PcAfterACommittedStep : Prop :=
  ∀ s t : State, StateInv s → s.status = .running → step s = .next t → t.fault = s.fault →
    t.pc.toNat =
      if s.codeMem.read s.pc.toNat = 0xFF then s.codeSize.toNat
      else if s.codeMem.read s.pc.toNat = 0x04 then
        min s.codeSize.toNat
          ((s.codeMem.read (s.pc.toNat + 1)).toNat + 256 * (s.codeMem.read (s.pc.toNat + 2)).toNat)
      else s.pc.toNat + instrLength (s.codeMem.read s.pc.toNat)

/-- spec/40_execution_cycle.md, operands past `CodeSize` (the spec's decision D29): an instruction other
than `JMP` and `HALT` that starts below `CodeSize` and ends past it, inside `CODE`, completes and leaves
the core halted past `CodeSize`. -/
def Obligations.InstructionAcrossCodeSizeEndsHalted : Prop :=
  ∀ s : State, StateInv s → s.status = .running →
    s.codeMem.read s.pc.toNat ∉ ([0x04, 0xFF] : List Byte) →
    s.codeSize.toNat < s.pc.toNat + instrLength (s.codeMem.read s.pc.toNat) →
    s.pc.toNat + instrLength (s.codeMem.read s.pc.toNat) ≤ Config.codeMemSize →
    ∃ t, step s = .next t ∧ t.status = .halted ∧
      t.pc.toNat = s.pc.toNat + instrLength (s.codeMem.read s.pc.toNat)

/-- spec/20_memory.md section 1 and spec/40_execution_cycle.md, Commit: no step writes either memory,
`CodeSize` or `EntryPoint`; every byte of both memories reads as before. -/
def Obligations.StepKeepsMemoryAndControlRegisters : Prop :=
  ∀ s t : State, step s = .next t →
    (∀ a, t.codeMem.read a = s.codeMem.read a) ∧ (∀ a, t.gfxMem.read a = s.gfxMem.read a) ∧
    t.codeMem = s.codeMem ∧ t.gfxMem = s.gfxMem ∧
    t.codeSize = s.codeSize ∧ t.entryPoint = s.entryPoint

/-- spec/10_state.md section 2: `SET_A` is the only instruction that writes `A`, and `SET_X` the only one
that writes `X`; a step that changes one ran that instruction, with that operand. -/
def Obligations.OnlySetAWritesAAndOnlySetXWritesX : Prop :=
  ∀ s t : State, step s = .next t →
    (t.a ≠ s.a → fetchInstr s = .ok (.setA t.a) ∧ s.status = .running) ∧
    (t.x ≠ s.x → fetchInstr s = .ok (.setX t.x) ∧ s.status = .running)

/-- spec/10_state.md section 4 (the list form and the diagnostic's fields are the spec's decisions D13 and
D14; the trace as a field is the model's, notes/assumptions/1.md): a step appends its events to the
trace; they are none, the decode of a `DRAW_BTP`, or the one diagnostic of an out-of-bounds `JMP`. -/
def Obligations.StepAppendsItsEvents : Prop :=
  ∀ s t : State, step s = .next t → ∃ evs, t.trace = s.trace ++ evs ∧
    (evs = [] ∨
      (∃ x y, fetchInstr s = .ok (.drawBtp x y) ∧ evs = decodeBitmap s.gfxMem x.toInt y.toInt) ∨
      (∃ target, fetchInstr s = .ok (.jmp target) ∧ s.codeSize.toNat ≤ target.toNat ∧
        evs = [.diag .outOfBoundsJump target s.pc]))

/-- spec/10_state.md section 2: no instruction reads `A` or `X`. Runs that start from states which differ
only in `A` and `X` differ only in `A` and `X`; and at the end each of the two has the same value in both
runs, or each run has kept its own from the start. -/
def Obligations.NoStepReadsAOrX : Prop :=
  ∀ (n : Nat) (s t : State) (v : Byte) (w : Half), steps n s = .next t →
    ∃ v' w', steps n { s with a := v, x := w } = .next { t with a := v', x := w' } ∧
      (v' = t.a ∨ (t.a = s.a ∧ v' = v)) ∧ (w' = t.x ∨ (t.x = s.x ∧ w' = w))

/-- R270. The entry point does not affect execution: after every successful load execution starts at
`CODE` offset 0, and runs from states that differ only in `EntryPoint` differ only in it, retained. -/
def Obligations.EntryPointNeverAffectsExecution : Prop :=
  (∀ (S : List Byte) (t : State), boot (some S) = (t, .ok) → t.pc = 0) ∧
  (∀ (n : Nat) (s t : State) (e : Long), steps n s = .next t →
    steps n { s with entryPoint := e } = .next { t with entryPoint := e })

/-! ## The invariant -/

/-- Power-on reset (spec/70_reset_and_hazards.md section 1; the zero values are the spec's decisions D20
and D21): every register 0, `Fault` clear, every byte of both memories 0, no event, and halted. -/
def Obligations.ResetIsAllZeroAndHalted : Prop :=
  State.reset.a = 0 ∧ State.reset.x = 0 ∧ State.reset.pc = 0 ∧ State.reset.codeSize = 0 ∧
  State.reset.entryPoint = 0 ∧ State.reset.fault = FaultRecord.clear ∧
  (∀ a, State.reset.codeMem.read a = 0) ∧ (∀ a, State.reset.gfxMem.read a = 0) ∧
  State.reset.trace = [] ∧ State.reset.status = .halted

/-- The invariant holds at power-on reset. -/
def Obligations.ResetMeetsTheInvariant : Prop := StateInv State.reset

/-- The invariants of spec/10_state.md section 4 (derived there), with the ranges of `Fault` and the zero
bytes past `CodeSize`: every step from a state that meets them gives a state that meets them. -/
def Obligations.StepKeepsTheInvariant : Prop :=
  ∀ s t : State, StateInv s → step s = .next t → StateInv t

/-- Every step from a state that meets the invariant has a next state: no instruction, no operand and no
placement of code stops the machine (spec/30_encoding.md section 4; fetch cannot fail,
spec/40_execution_cycle.md). -/
def Obligations.StepFromTheInvariantAlwaysCompletes : Prop :=
  ∀ s : State, StateInv s → ∃ t, step s = .next t

/-- The load port gives a state that meets the invariant, whatever the stream. -/
def Obligations.LoadMeetsTheInvariant : Prop :=
  ∀ S : List Byte, StateInv (boot (some S)).1

/-- Every run of every cartridge goes on for any number of steps and stays in the invariant
(spec/10_state.md section 4: every state the load port or a step produces). -/
def Obligations.EveryRunStaysInTheInvariant : Prop :=
  ∀ (S : List Byte) (n : Nat), ∃ t, steps n (boot (some S)).1 = .next t ∧ StateInv t

/-! ## Encoding -/

/-- Decode and encode agree: every well-formed instruction, with every operand, reads back from its
encoding, whatever bytes follow (spec/30_encoding.md section 1). -/
def Obligations.DecodeOfEncodeIsTheInstruction : Prop :=
  ∀ (i : Instr) (rest : List Byte), i.wf = true → decode (encode i ++ rest) = .ok (i, rest)

/-- Each byte list has one reading: what a decode gives is well-formed, and the bytes it used are that
instruction's encoding (spec/30_encoding.md section 1). -/
def Obligations.EncodeOfDecodeIsTheBytes : Prop :=
  ∀ (bytes rest : List Byte) (i : Instr), decode bytes = .ok (i, rest) →
    i.wf = true ∧ bytes = encode i ++ rest

/-- R91. The opcode byte alone determines the length, which is the table's, and the instruction: any list
with that many bytes decodes, to an instruction of that opcode, and uses exactly that many. -/
def Obligations.OpcodeAloneDecidesTheLength : Prop :=
  (∀ op : Byte, instrLength op =
    if op = 0x01 then 2 else if op = 0x02 then 3 else if op = 0x04 then 3
    else if op = 0x08 then 5 else 1) ∧
  (∀ (op : Byte) (tail : List Byte), instrLength op ≤ (op :: tail).length →
    ∃ i, decode (op :: tail) = .ok (i, (op :: tail).drop (instrLength op)) ∧ i.opcode = op) ∧
  (∀ i : Instr, (i.opcode = 0x00 ∧ i.wf = true ↔ i = .nop) ∧
    (i.opcode = 0x01 ∧ i.wf = true ↔ ∃ v, i = .setA v) ∧
    (i.opcode = 0x02 ∧ i.wf = true ↔ ∃ v, i = .setX v) ∧
    (i.opcode = 0x04 ∧ i.wf = true ↔ ∃ v, i = .jmp v) ∧
    (i.opcode = 0x08 ∧ i.wf = true ↔ ∃ x y, i = .drawBtp x y) ∧
    (i.opcode = 0xFF ∧ i.wf = true ↔ i = .halt))

/-- R124. Decode compares the whole opcode byte with the six defined values, each of which selects its own
instruction; any other value selects the undefined no-op, whatever bytes follow, and no defined one does. -/
def Obligations.OnlyTheSixOpcodesAreDefined : Prop :=
  (∀ (op : Byte) (tail : List Byte), op ∉ definedOpcodes →
    decode (op :: tail) = .ok (.undef op, tail)) ∧
  (∀ tail, decode (0x00 :: tail) = .ok (.nop, tail)) ∧
  (∀ v tail, decode (0x01 :: v :: tail) = .ok (.setA v, tail)) ∧
  (∀ b0 b1 tail, decode (0x02 :: b0 :: b1 :: tail) = .ok (.setX (le16 b0 b1), tail)) ∧
  (∀ b0 b1 tail, decode (0x04 :: b0 :: b1 :: tail) = .ok (.jmp (le16 b0 b1), tail)) ∧
  (∀ b0 b1 b2 b3 tail, decode (0x08 :: b0 :: b1 :: b2 :: b3 :: tail) =
    .ok (.drawBtp (le16 b0 b1) (le16 b2 b3), tail)) ∧
  (∀ tail, decode (0xFF :: tail) = .ok (.halt, tail)) ∧
  (∀ (op : Byte) (tail rest : List Byte) (i : Instr), decode (op :: tail) = .ok (i, rest) →
    (i = .undef op ↔ op ∉ definedOpcodes)) ∧
  (∀ op : Byte, op ∈ definedOpcodes ↔
    op = 0x00 ∨ op = 0x01 ∨ op = 0x02 ∨ op = 0x04 ∨ op = 0x08 ∨ op = 0xFF)

/-- The example encodings of spec/30_encoding.md section 6, as table words, decode to their
instructions. -/
def Obligations.ExampleWordsDecode : Prop :=
  decodeTableWord 16 0x2A01 = some (.setA 42) ∧
  decodeTableWord 8 0xFF = some .halt ∧
  decodeTableWord 24 0xFFFF02 = some (.setX 0xFFFF) ∧
  decodeTableWord 24 0x123402 = some (.setX 0x1234) ∧
  decodeTableWord 24 0x000504 = some (.jmp 5) ∧
  decodeTableWord 40 0xFFFD000A08 = some (.drawBtp 10 0xFFFD) ∧
  decodeTableWord 40 0x7FFF800008 = some (.drawBtp 0x8000 0x7FFF) ∧
  decodeTableWord 8 0x00 = some .nop ∧
  decodeTableWord 8 0x03 = some (.undef 0x03)

/-- A table word placed by `withFetchWord` is what the next step runs (the placing stands for the load of
a program and is the model's, notes/assumptions/3.md). -/
def Obligations.PlacedWordIsTheNextInstruction : Prop :=
  ∀ (s : State) (nbits w : Nat) (i : Instr), StateInv s → nbits ≤ 40 → decodeTableWord nbits w = some i →
    (s.withFetchWord nbits w).status = .running ∧
    step (s.withFetchWord nbits w) = exec i (s.withFetchWord nbits w)

/-! ## Memory -/

/-- spec/20_memory.md section 2, the bounds check of every read (that the bound is the buffer's length and
not `CodeSize` is the spec's decision D29). -/
def Obligations.ReadsCheckTheBufferLength : Prop :=
  ∀ (s : State) (a n : Nat), n = 1 ∨ n = 2 →
    (a + n - 1 < Config.codeMemSize → memRead s .code a n = .ok (readBytes s.codeMem a n)) ∧
    (Config.codeMemSize ≤ a + n - 1 → memRead s .code a n = .error ⟨.code, a⟩) ∧
    (a + n - 1 < Config.gfxMemSize → memRead s .gfx a n = .ok (readBytes s.gfxMem a n)) ∧
    (Config.gfxMemSize ≤ a + n - 1 → memRead s .gfx a n = .error ⟨.gfx, a⟩)

/-- R65. A 16-bit read is little-endian: the byte at the lower offset is the less significant. -/
def Obligations.SixteenBitReadsAreLittleEndian : Prop :=
  ∀ (m : Memory) (a : Nat), m.read16 a = le16 (m.read a) (m.read (a + 1)) ∧
    (m.read16 a).toNat = (m.read a).toNat + 256 * (m.read (a + 1)).toNat

/-- `sext_16` is the two's-complement reading (spec/00_scope.md section 3, which marks it as general
knowledge, decision D5; notes/assumptions/12.md). -/
def Obligations.SignedOperandsAreTwosComplement : Prop :=
  ∀ v : Half, sext16 v = v.toInt ∧ -32768 ≤ sext16 v ∧ sext16 v ≤ 32767

/-! ## The tile-bitmap decoder -/

/-- spec/42_draw_btp.md, the tile-bitmap decoder; that the left pixel comes first is the spec's decision
D11, and that the pointer is tested against the buffer's end its decision D10
(notes/assumptions/14.md). One data byte gives its high nibble as the left pixel and its low nibble as the
right one, each a filled square at `((origin + tile + pixel) * 2)` of side 2, lit exactly where its
intensity is not 0, unlit pixels included. -/
def Obligations.DataByteGivesLeftThenRightPixel : Prop :=
  ∀ (m : Memory) (ox oy : Int) (ty tx py px ptr : Nat), ptr < Config.gfxMemSize →
    drawPair m ox oy ty tx py px ptr =
      ⟨[.pixel ((ox + tx + px + 0) * 2) ((oy + ty + py) * 2) 2
          (if (m.read ptr).toNat / 16 = 0 then .unlit else .lit),
        .pixel ((ox + tx + px + 1) * 2) ((oy + ty + py) * 2) 2
          (if (m.read ptr).toNat % 16 = 0 then .unlit else .lit)],
        some (ptr + 1)⟩

/-- The decoder's loops (spec/42_draw_btp.md, the tile-bitmap decoder) emit exactly the closed form of its
layout and count formulas, which the spec derives: for each data byte in memory order up to the early
stop, the left and then the right pixel, at the place and with the nibble the layout formula gives. The
order of the two is the spec's decision D11, and the end of graphics memory its decision D10. -/
def Obligations.DecoderLoopsEqualTheLayoutFormula : Prop :=
  ∀ (m : Memory) (ox oy : Int), decodeBitmap m ox oy = layoutEvents m ox oy

/-- spec/42_draw_btp.md, the count (derived there): `2 * N` events for
`N = min(32 * TW * TH, 65532)` data bytes, so at most 131064. -/
def Obligations.DecodeEmitsTwoEventsPerDataByte : Prop :=
  ∀ (m : Memory) (ox oy : Int),
    (decodeBitmap m ox oy).length =
      2 * min (32 * ((bitmapWidth m + 7) / 8) * ((bitmapHeight m + 7) / 8)) 65532

/-- spec/42_draw_btp.md, empty bitmaps (derived there): a width or height of 0 gives no event, and then
`DRAW_BTP` only advances `PC`. -/
def Obligations.EmptyBitmapDrawsNothing : Prop :=
  ∀ (m : Memory) (ox oy : Int), bitmapWidth m = 0 ∨ bitmapHeight m = 0 → decodeBitmap m ox oy = []

/-- spec/42_draw_btp.md, coordinates (derived there; exact arithmetic is the spec's decision D12): every
event of a decode is a pixel of side 2 whose coordinates lie in -65536..98300, unclipped. -/
def Obligations.DecodedCoordinatesAreBounded : Prop :=
  ∀ (m : Memory) (x y : Half) (e : Event), e ∈ decodeBitmap m x.toInt y.toInt →
    ∃ (px py : Int) (c : Color), e = .pixel px py 2 c ∧
      -65536 ≤ px ∧ px ≤ 98300 ∧ -65536 ≤ py ∧ py ≤ 98300

/-- spec/42_draw_btp.md, translation (derived there): decodes at two origins differ only by the
translation of every pixel. -/
def Obligations.DecodesAtTwoOriginsAreTranslates : Prop :=
  ∀ (m : Memory) (ox1 oy1 ox2 oy2 : Int),
    decodeBitmap m ox2 oy2 =
      (decodeBitmap m ox1 oy1).map (Event.shift (2 * (ox2 - ox1)) (2 * (oy2 - oy1)))

/-- spec/42_draw_btp.md, the layout formula (derived there; the end of graphics memory is the spec's
decision D10): each pixel of the whole tiles whose byte lies
in graphics memory is drawn, with the colour of its nibble, and no pixel of another place is. -/
def Obligations.ExactlyTheLaidOutPixelsAreDrawn : Prop :=
  ∀ (m : Memory) (ox oy : Int) (e : Event),
    e ∈ decodeBitmap m ox oy ↔
      ∃ cx cy, cx < 8 * tilesAcross (bitmapWidth m) ∧ cy < 8 * tilesAcross (bitmapHeight m) ∧
        layoutOffset (tilesAcross (bitmapWidth m)) cx cy < Config.gfxMemSize ∧
        e = layoutPixel m ox oy (tilesAcross (bitmapWidth m)) cx cy

/-! ## The load port -/

/-- spec/70_reset_and_hazards.md section 2, and section 7's premises of every claim (derived there). The
zero bytes elsewhere are the spec's decisions D20 and D21, the signed reading of the header's integers its
decision D22, the bytes of the magic general knowledge (notes/assumptions/13.md), and the trace as a
field the model's (notes/assumptions/1.md). The header's integers stand at offsets 10, 14 and 18,
little-endian; a stream that passes the checks loads: both payloads from offset 0 of their
buffers, clamped to them, the graphics payload at stream offset `22 + C` even where code is dropped;
`CodeSize`, `PC` and `EntryPoint` written; `A`, `X` and `Fault` at their reset values; `Ok` returned. -/
def Obligations.SuccessfulLoadWritesTheImage : Prop :=
  ∀ S : List Byte, loadResult S = .ok → HeaderLayout S ∧ ∃ t, boot (some S) = (t, .ok) ∧
    LoadedFrom S t ∧ t.entryPoint = (cartHeader S).entryPoint

/-- R267. A failed load changes no state: both memories stay all zero, `CodeSize` stays 0 and the core
stays halted. -/
def Obligations.FailedLoadChangesNothing : Prop :=
  ∀ S : List Byte, loadResult S ≠ .ok →
    (∀ s : State, (loadImage S s).1 = s ∧ (loadImage S s).2 = loadResult S) ∧
    (boot (some S)).1 = State.reset ∧ (boot (some S)).1.status = .halted ∧
    (∀ a, (boot (some S)).1.codeMem.read a = 0) ∧ (∀ a, (boot (some S)).1.gfxMem.read a = 0) ∧
    (boot (some S)).1.codeSize = 0

/-- spec/70_reset_and_hazards.md section 2, the checks of a load (short streams, negative lengths and the
signed reading are the spec's decision D22): a load succeeds exactly when the magic, the header, both
lengths and both payloads are there; bytes after them do not matter. The header's integers are the
little-endian ones at offsets 10, 14 and 18. -/
def Obligations.LoadSucceedsExactlyOnWholeImages : Prop :=
  ∀ S : List Byte, HeaderLayout S ∧ (loadResult S = .ok ↔
    S.take 10 = Config.magic ∧ 22 ≤ S.length ∧
    0 ≤ signed32 (cartHeader S).codeLength ∧ 0 ≤ signed32 (cartHeader S).gfxLength ∧
    22 + signed32 (cartHeader S).codeLength + signed32 (cartHeader S).gfxLength ≤ S.length)

/-- spec/70_reset_and_hazards.md section 2, the magic (its ASCII bytes are general knowledge there,
notes/assumptions/13.md; a stream under 10 bytes is the spec's decision D24): a mismatch is
`InvalidFormat` with the bytes read, and nothing is written. -/
def Obligations.BadMagicIsInvalidFormat : Prop :=
  ∀ S : List Byte, S.take 10 ≠ Config.magic →
    boot (some S) = (State.reset, .invalidFormat (S.take 10))

/-- spec/70_reset_and_hazards.md, one load in the reset state (the spec's decision D23; the refusal by name
and what uses the port up are the model's, notes/assumptions/5.md). After power-on the load port answers
what the boot order gives and closes; closed, or outside the reset state, it refuses. -/
def Obligations.LoadPortWorksOnlyInReset : Prop :=
  (∀ S : List Byte, loadPort S powerOn =
    .next (⟨(boot (some S)).1, false⟩, (boot (some S)).2)) ∧
  (∀ (S : List Byte) (h : Session), h.loadOpen = false ∨ h.core ≠ State.reset →
    loadPort S h = .refused .loadOutsideReset)

/-! ## The host's side -/

/-- spec/40_execution_cycle.md, the step port's response: the run status after the step, and exactly the
events by which the step extended the trace. The load port is closed from then on (the record of it is
the model's, notes/assumptions/5.md). -/
def Obligations.StepPortAnswersStatusAndEvents : Prop :=
  ∀ (h : Session) (t : State), step h.core = .next t →
    ∃ r, stepPort h = .next (⟨t, false⟩, r) ∧ r.status = t.status ∧ t.trace = h.core.trace ++ r.events

/-- spec/70_reset_and_hazards.md, the load port and the table of the host's interactions (the spec's
decision D23; the refusal by name is the model's, notes/assumptions/5.md). From power-on, any requests at
all are answered to the end exactly where a load comes at most once and before the first step; any others
are refused at the load that breaks this. -/
def Obligations.LoadIsAnsweredOnceBeforeTheFirstStep : Prop :=
  ∀ reqs : List HostRequest,
    (LoadsOnceFirst reqs → ∃ h rs, hostRun reqs powerOn = .next (h, rs)) ∧
    (¬ LoadsOnceFirst reqs → hostRun reqs powerOn = .refused .loadOutsideReset)

/-- spec/10_state.md section 4, the inspect port, and spec/70_reset_and_hazards.md section 7: inspect and
close change nothing, in the core or in what the host may still do; inspect shows the registers, with
`EntryPoint` as a signed integer, the fault record and the run status. -/
def Obligations.InspectAndCloseChangeNothing : Prop :=
  ∀ h : Session,
    hostPort .inspect h = .next (h, .inspected ⟨h.core.a, h.core.x, h.core.pc, h.core.codeSize,
      signed32 h.core.entryPoint, h.core.fault, h.core.status⟩) ∧
    hostPort .close h = .next (h, .nothing)

/-- spec/70_reset_and_hazards.md section 4: the frames do not matter. `n` frames of the host loop leave the
state that `10 * n` plain step requests leave, halted or not. -/
def Obligations.FramesAreJustSteps : Prop :=
  ∀ (n : Nat) (s : State), hostLoop n s = steps (10 * n) s
end

