-- ==== Sys2Proof/Laws/Draw.lean ====
section
/-! SUPPORT. The decoder's loop: one pass, no pass, and two loops in a row; and one pixel pair. -/

namespace Sys2Proof.Machine

@[simp] theorem drawLoop_nil (body : Nat → Nat → DrawRun) (ptr : Nat) :
    drawLoop body [] ptr = ⟨[], some ptr⟩ := rfl

/-- A pass that stops ends the loop with what it emitted (R186). -/
theorem drawLoop_cons_stop {body : Nat → Nat → DrawRun} {n : Nat} {ns : List Nat} {ptr : Nat}
    {evs : List Event} (h : body n ptr = ⟨evs, none⟩) :
    drawLoop body (n :: ns) ptr = ⟨evs, none⟩ := by
  simp [drawLoop, h]

/-- A pass that ends at `ptr'` is followed by the rest of the loop from `ptr'`. -/
theorem drawLoop_cons_next {body : Nat → Nat → DrawRun} {n : Nat} {ns : List Nat} {ptr ptr' : Nat}
    {evs : List Event} (h : body n ptr = ⟨evs, some ptr'⟩) :
    drawLoop body (n :: ns) ptr =
      ⟨evs ++ (drawLoop body ns ptr').events, (drawLoop body ns ptr').ptr⟩ := by
  simp [drawLoop, h]

/-- Each byte of a pair is tested, read and emitted whole, or not at all (R186). -/
theorem drawPair_eq (m : Memory) (ox oy : Int) (ty tx py px ptr : Nat) :
    drawPair m ox oy ty tx py px ptr =
      if ptr < Config.gfxMemSize then
        ⟨pairEvents ox oy ty tx py px (m.read ptr), some (ptr + 1)⟩
      else ⟨[], none⟩ := by
  unfold drawPair
  by_cases h : ptr < Config.gfxMemSize
  · rw [if_neg (by omega), if_pos h]
  · rw [if_pos (by omega), if_neg h]

/-- With the fixed size of graphics memory the precondition of R183 always holds. -/
theorem decodeBitmap_eq (m : Memory) (ox oy : Int) :
    decodeBitmap m ox oy = (drawTiles m ox oy Config.headerBytes).events := by
  unfold decodeBitmap
  rw [if_neg (by decide)]

end Sys2Proof.Machine
end

