-- ==== Sys2Proof/Laws/Memory.lean ====
section
/-! SUPPORT. The laws of the byte buffers: read after write, the canonical form kept by every memory
operation, and extensionality of canonical memories. -/

namespace Sys2Proof.Machine

@[simp] theorem Memory.read_nil (a : Nat) : Memory.read [] a = Memory.unlisted := rfl

theorem Memory.unlisted_eq_zero : Memory.unlisted = 0 := rfl

theorem Memory.read_of_lt_all (m : Memory) (a : Nat) (h : ∀ c ∈ m, a < c.1) :
    m.read a = Memory.unlisted := by
  induction m with
  | nil => rfl
  | cons c rest ih =>
    have hc := h c (by simp)
    have : c.1 ≠ a := by omega
    simp only [Memory.read, this, if_false]
    exact ih fun d hd => h d (by simp [hd])

theorem Memory.read_of_below (m : Memory) (limit a : Nat) (h : m.below limit) (ha : limit ≤ a) :
    m.read a = Memory.unlisted := by
  induction m with
  | nil => rfl
  | cons c rest ih =>
    have hc := h c (by simp)
    have : c.1 ≠ a := by omega
    simp only [Memory.read, this, if_false]
    exact ih fun d hd => h d (by simp [hd])

/-- The head of a canonical memory lies below all of its tail, and the tail is canonical. -/
theorem Memory.wf_cons {c : Host.Cell} {rest : Memory} (h : Memory.wf (c :: rest)) :
    (∀ d ∈ rest, c.1 < d.1) ∧ c.2 ≠ Memory.unlisted ∧ Memory.wf rest := by
  obtain ⟨h1, h2⟩ := h
  rw [List.pairwise_cons] at h1
  exact ⟨h1.1, h2 c (by simp), h1.2, fun d hd => h2 d (by simp [hd])⟩

theorem Memory.wf_of_cons {c : Host.Cell} {rest : Memory} (h1 : ∀ d ∈ rest, c.1 < d.1)
    (h2 : c.2 ≠ Memory.unlisted) (h3 : Memory.wf rest) : Memory.wf (c :: rest) := by
  refine ⟨List.pairwise_cons.2 ⟨h1, h3.1⟩, ?_⟩
  intro d hd
  rcases List.mem_cons.1 hd with rfl | hd
  · exact h2
  · exact h3.2 d hd

/-- A cell after a write was there before, or is the cell written. -/
theorem Memory.mem_write {m : Memory} {a : Nat} {v : Byte} {c : Host.Cell} (h : c ∈ m.write a v) :
    c ∈ m ∨ (c = (a, v) ∧ v ≠ Memory.unlisted) := by
  induction m with
  | nil =>
    simp only [Memory.write] at h
    split at h <;> simp_all
  | cons d rest ih =>
    obtain ⟨k, u⟩ := d
    simp only [Memory.write] at h
    split at h
    · split at h
      · exact .inl h
      · rcases List.mem_cons.1 h with h | h
        · exact .inr ⟨h, by assumption⟩
        · exact .inl h
    · split at h
      · split at h
        · exact .inl (by simp [h])
        · rcases List.mem_cons.1 h with h | h
          · exact .inr ⟨h, by assumption⟩
          · exact .inl (by simp [h])
      · rcases List.mem_cons.1 h with h | h
        · exact .inl (by simp [h])
        · rcases ih h with h | h
          · exact .inl (by simp [h])
          · exact .inr h

/-- A write keeps the canonical form. -/
theorem Memory.write_wf {m : Memory} (a : Nat) (v : Byte) (h : m.wf) : (m.write a v).wf := by
  induction m with
  | nil =>
    simp only [Memory.write]
    split
    · exact h
    · exact Memory.wf_of_cons (by simp) (by assumption) h
  | cons d rest ih =>
    obtain ⟨k, u⟩ := d
    obtain ⟨h1, h2, h3⟩ := Memory.wf_cons h
    simp only [Memory.write]
    split
    · split
      · exact h
      · refine Memory.wf_of_cons ?_ (by assumption) h
        intro d hd
        rcases List.mem_cons.1 hd with rfl | hd
        · assumption
        · have := h1 d hd
          simp only at this ⊢
          omega
    · split
      · split
        · exact h3
        · subst a
          exact Memory.wf_of_cons h1 (by assumption) h3
      · refine Memory.wf_of_cons ?_ h2 (ih h3)
        intro d hd
        rcases Memory.mem_write hd with hd | ⟨rfl, -⟩
        · exact h1 d hd
        · simp only
          omega

theorem Memory.write_below {m : Memory} {limit a : Nat} (v : Byte) (h : m.below limit)
    (ha : a < limit) : (m.write a v).below limit := by
  intro c hc
  rcases Memory.mem_write hc with hc | ⟨rfl, -⟩
  · exact h c hc
  · exact ha

/-- Reading where a byte was written gives that byte. -/
theorem Memory.read_write_same {m : Memory} (a : Nat) (v : Byte) (h : m.wf) :
    (m.write a v).read a = v := by
  induction m with
  | nil =>
    simp only [Memory.write]
    split <;> simp_all [Memory.read]
  | cons d rest ih =>
    obtain ⟨k, u⟩ := d
    obtain ⟨h1, h2, h3⟩ := Memory.wf_cons h
    simp only [Memory.write]
    split
    · split
      · rename_i hlt hv
        rw [hv]
        refine Memory.read_of_lt_all _ _ ?_
        intro d hd
        rcases List.mem_cons.1 hd with rfl | hd
        · exact hlt
        · have := h1 d hd
          simp only at this
          omega
      · simp [Memory.read]
    · split
      · split
        · rename_i _ hk hv
          rw [hv]
          refine Memory.read_of_lt_all _ _ fun d hd => ?_
          rw [hk]
          exact h1 d hd
        · simp [Memory.read]
      · have : k ≠ a := fun hk => by omega
        simp only [Memory.read, this, if_false]
        exact ih h3

/-- A write leaves every other address alone. -/
theorem Memory.read_write_ne {m : Memory} {a b : Nat} (v : Byte) (h : b ≠ a) :
    (m.write a v).read b = m.read b := by
  have h' : a ≠ b := fun e => h e.symm
  induction m with
  | nil =>
    simp only [Memory.write]
    split <;> simp [Memory.read, h']
  | cons d rest ih =>
    obtain ⟨k, u⟩ := d
    simp only [Memory.write]
    split
    · split
      · rfl
      · simp [Memory.read, h']
    · split
      · rename_i hk
        subst hk
        split <;> simp [Memory.read, h']
      · simp only [Memory.read, ih]

theorem Memory.writeBytes_wf {m : Memory} (start : Nat) (bs : List Byte) (h : m.wf) :
    (m.writeBytes start bs).wf := by
  induction bs generalizing start with
  | nil => exact h
  | cons b bs ih => exact Memory.write_wf _ _ (ih (start + 1))

theorem Memory.writeBytes_below {m : Memory} {limit : Nat} (start : Nat) (bs : List Byte)
    (h : m.below limit) (hs : start + bs.length ≤ limit) : (m.writeBytes start bs).below limit := by
  induction bs generalizing start with
  | nil => exact h
  | cons b bs ih =>
    simp only [List.length_cons] at hs
    exact Memory.write_below _ (ih (start + 1) (by omega)) (by omega)

/-- Every byte after `writeBytes`: the byte stored there, or the byte that was there. -/
theorem Memory.read_writeBytes {m : Memory} (start a : Nat) (bs : List Byte) (h : m.wf) :
    (m.writeBytes start bs).read a =
      if start ≤ a ∧ a < start + bs.length then bs.getD (a - start) 0 else m.read a := by
  induction bs generalizing start with
  | nil =>
    have : ¬(start ≤ a ∧ a < start + ([] : List Byte).length) := by simp
    rw [if_neg this]
    rfl
  | cons b bs ih =>
    simp only [Memory.writeBytes]
    by_cases hb : a = start
    · subst hb
      rw [Memory.read_write_same _ _ (Memory.writeBytes_wf _ _ h)]
      simp
    · rw [Memory.read_write_ne _ hb, ih (start + 1)]
      simp only [List.length_cons]
      by_cases hi : start + 1 ≤ a ∧ a < start + 1 + bs.length
      · rw [if_pos hi, if_pos (by omega)]
        obtain ⟨k, hk⟩ : ∃ k, a - start = k + 1 := ⟨a - start - 1, by omega⟩
        have hk' : a - (start + 1) = k := by omega
        rw [hk, hk', List.getD_cons_succ]
      · rw [if_neg hi, if_neg (by omega)]

/-- `writeRange` keeps the canonical form (R66). -/
theorem Memory.writeRange_wf {m : Memory} (size start : Nat) (bs : List Byte) (h : m.wf) :
    (m.writeRange size start bs).wf :=
  Memory.writeBytes_wf _ _ h

/-- `writeRange` writes no byte past the buffer (R66). -/
theorem Memory.writeRange_below {m : Memory} {size : Nat} (start : Nat) (bs : List Byte)
    (h : m.below size) (hs : start ≤ size) : (m.writeRange size start bs).below size := by
  refine Memory.writeBytes_below _ _ h ?_
  simp only [List.length_take]
  omega

/-- Every byte after `writeRange` (R66): `bytes[i]` at `start + i` for `i < min(L, SIZE - start)`, and
every other byte as before. -/
theorem Memory.read_writeRange {m : Memory} (size start a : Nat) (bs : List Byte) (h : m.wf) :
    (m.writeRange size start bs).read a =
      if start ≤ a ∧ a < start + min bs.length (size - start) then bs.getD (a - start) 0
      else m.read a := by
  unfold Memory.writeRange
  rw [Memory.read_writeBytes _ _ _ h, List.length_take, Nat.min_comm]
  by_cases hi : start ≤ a ∧ a < start + min bs.length (size - start)
  · rw [if_pos hi, if_pos hi]
    have : a - start < size - start := by omega
    simp [List.getD_eq_getElem?_getD, this]
  · rw [if_neg hi, if_neg hi]

/-- Canonical memories that read the same everywhere are the same data. -/
theorem Memory.ext_of_wf {m n : Memory} (hm : m.wf) (hn : n.wf) (h : ∀ a, m.read a = n.read a) :
    m = n := by
  induction m generalizing n with
  | nil =>
    cases n with
    | nil => rfl
    | cons d rest =>
      have hd := (Memory.wf_cons hn).2.1
      have := h d.1
      simp [Memory.read] at this
      exact absurd this.symm hd
  | cons c m ih =>
    obtain ⟨c1, c2, c3⟩ := Memory.wf_cons hm
    cases n with
    | nil =>
      have := h c.1
      simp [Memory.read] at this
      exact absurd this c2
    | cons d n =>
      obtain ⟨d1, d2, d3⟩ := Memory.wf_cons hn
      have key : c.1 = d.1 := by
        rcases Nat.lt_trichotomy c.1 d.1 with hlt | he | hlt
        · have h0 : Memory.read (d :: n) c.1 = Memory.unlisted := by
            refine Memory.read_of_lt_all _ _ fun e he => ?_
            rcases List.mem_cons.1 he with rfl | he
            · exact hlt
            · exact Nat.lt_trans hlt (d1 e he)
          have h1 := h c.1
          rw [h0] at h1
          simp [Memory.read] at h1
          exact absurd h1 c2
        · exact he
        · have h0 : Memory.read (c :: m) d.1 = Memory.unlisted := by
            refine Memory.read_of_lt_all _ _ fun e he => ?_
            rcases List.mem_cons.1 he with rfl | he
            · exact hlt
            · exact Nat.lt_trans hlt (c1 e he)
          have h1 := h d.1
          rw [h0] at h1
          simp [Memory.read] at h1
          exact absurd h1.symm d2
      have val : c.2 = d.2 := by
        have h1 := h c.1
        simp only [Memory.read] at h1
        simpa [key] using h1
      have hcd : c = d := Prod.ext key val
      subst hcd
      congr 1
      refine ih c3 d3 fun a => ?_
      by_cases ha : c.1 = a
      · subst ha
        rw [Memory.read_of_lt_all m _ c1, Memory.read_of_lt_all n _ d1]
      · have h1 := h a
        simpa only [Memory.read, ha, if_false] using h1

end Sys2Proof.Machine
end

