-- ==== Sys2Proof/Laws/Operands.lean ====
section
/-! SUPPORT. Byte order and sign: a half splits into its bytes and comes back, and the numeric values of
the readings. -/

namespace Sys2Proof.Machine

@[simp] theorem le16_toNat (b0 b1 : Byte) : (le16 b0 b1).toNat = b0.toNat + 256 * b1.toNat := by
  have h0 := b0.isLt
  have h1 := b1.isLt
  simp only [le16, BitVec.toNat_ofNat]
  omega

@[simp] theorem loByte_le16 (b0 b1 : Byte) : loByte (le16 b0 b1) = b0 := by
  have h0 := b0.isLt
  apply BitVec.eq_of_toNat_eq
  simp only [loByte, le16_toNat, BitVec.toNat_ofNat]
  omega

@[simp] theorem hiByte_le16 (b0 b1 : Byte) : hiByte (le16 b0 b1) = b1 := by
  have h0 := b0.isLt
  have h1 := b1.isLt
  apply BitVec.eq_of_toNat_eq
  simp only [hiByte, le16_toNat, BitVec.toNat_ofNat]
  omega

@[simp] theorem le16_loByte_hiByte (h : Half) : le16 (loByte h) (hiByte h) = h := by
  have hl := h.isLt
  apply BitVec.eq_of_toNat_eq
  simp only [loByte, hiByte, le16_toNat, BitVec.toNat_ofNat]
  omega

/-- `sext_16` lies in -32768..32767 (R10). -/
theorem sext16_range (v : Half) : -32768 ≤ sext16 v ∧ sext16 v ≤ 32767 := by
  have hl := v.isLt
  unfold sext16
  split <;> omega

theorem le32_toNat (b0 b1 b2 b3 : Byte) :
    (le32 b0 b1 b2 b3).toNat =
      b0.toNat + 2 ^ 8 * b1.toNat + 2 ^ 16 * b2.toNat + 2 ^ 24 * b3.toNat := by
  have h0 := b0.isLt
  have h1 := b1.isLt
  have h2 := b2.isLt
  have h3 := b3.isLt
  simp only [le32, BitVec.toNat_ofNat]
  omega

/-- A length that is not negative as an int32 is below 2^31 (R268). -/
theorem signed32_range (v : Long) : -(2 ^ 31) ≤ signed32 v ∧ signed32 v < 2 ^ 31 := by
  have hl := v.isLt
  unfold signed32
  split <;> omega

end Sys2Proof.Machine
end

