-- ==== Sys2Proof/Laws/State.lean ====
section
/-! SUPPORT. One lemma per field per update of the state, so that no later proof unfolds a record
update. -/

namespace Sys2Proof.Machine

/-! ## State.setPc -/

@[simp] theorem State.setPc_a (s : State) (v : Half) : (s.setPc v).a = s.a := rfl
@[simp] theorem State.setPc_x (s : State) (v : Half) : (s.setPc v).x = s.x := rfl
@[simp] theorem State.setPc_pc (s : State) (v : Half) : (s.setPc v).pc = v := rfl
@[simp] theorem State.setPc_codeSize (s : State) (v : Half) : (s.setPc v).codeSize = s.codeSize := rfl
@[simp] theorem State.setPc_entryPoint (s : State) (v : Half) : (s.setPc v).entryPoint = s.entryPoint := rfl
@[simp] theorem State.setPc_fault (s : State) (v : Half) : (s.setPc v).fault = s.fault := rfl
@[simp] theorem State.setPc_codeMem (s : State) (v : Half) : (s.setPc v).codeMem = s.codeMem := rfl
@[simp] theorem State.setPc_gfxMem (s : State) (v : Half) : (s.setPc v).gfxMem = s.gfxMem := rfl
@[simp] theorem State.setPc_trace (s : State) (v : Half) : (s.setPc v).trace = s.trace := rfl

/-! ## State.setA -/

@[simp] theorem State.setA_a (s : State) (v : Byte) : (s.setA v).a = v := rfl
@[simp] theorem State.setA_x (s : State) (v : Byte) : (s.setA v).x = s.x := rfl
@[simp] theorem State.setA_pc (s : State) (v : Byte) : (s.setA v).pc = s.pc := rfl
@[simp] theorem State.setA_codeSize (s : State) (v : Byte) : (s.setA v).codeSize = s.codeSize := rfl
@[simp] theorem State.setA_entryPoint (s : State) (v : Byte) : (s.setA v).entryPoint = s.entryPoint := rfl
@[simp] theorem State.setA_fault (s : State) (v : Byte) : (s.setA v).fault = s.fault := rfl
@[simp] theorem State.setA_codeMem (s : State) (v : Byte) : (s.setA v).codeMem = s.codeMem := rfl
@[simp] theorem State.setA_gfxMem (s : State) (v : Byte) : (s.setA v).gfxMem = s.gfxMem := rfl
@[simp] theorem State.setA_trace (s : State) (v : Byte) : (s.setA v).trace = s.trace := rfl

/-! ## State.setX -/

@[simp] theorem State.setX_a (s : State) (v : Half) : (s.setX v).a = s.a := rfl
@[simp] theorem State.setX_x (s : State) (v : Half) : (s.setX v).x = v := rfl
@[simp] theorem State.setX_pc (s : State) (v : Half) : (s.setX v).pc = s.pc := rfl
@[simp] theorem State.setX_codeSize (s : State) (v : Half) : (s.setX v).codeSize = s.codeSize := rfl
@[simp] theorem State.setX_entryPoint (s : State) (v : Half) : (s.setX v).entryPoint = s.entryPoint := rfl
@[simp] theorem State.setX_fault (s : State) (v : Half) : (s.setX v).fault = s.fault := rfl
@[simp] theorem State.setX_codeMem (s : State) (v : Half) : (s.setX v).codeMem = s.codeMem := rfl
@[simp] theorem State.setX_gfxMem (s : State) (v : Half) : (s.setX v).gfxMem = s.gfxMem := rfl
@[simp] theorem State.setX_trace (s : State) (v : Half) : (s.setX v).trace = s.trace := rfl

/-! ## State.advance -/

@[simp] theorem State.advance_a (s : State) (n : Nat) : (s.advance n).a = s.a := rfl
@[simp] theorem State.advance_x (s : State) (n : Nat) : (s.advance n).x = s.x := rfl
@[simp] theorem State.advance_pc (s : State) (n : Nat) : (s.advance n).pc = BitVec.ofNat 16 (s.pc.toNat + n) := rfl
@[simp] theorem State.advance_codeSize (s : State) (n : Nat) : (s.advance n).codeSize = s.codeSize := rfl
@[simp] theorem State.advance_entryPoint (s : State) (n : Nat) : (s.advance n).entryPoint = s.entryPoint := rfl
@[simp] theorem State.advance_fault (s : State) (n : Nat) : (s.advance n).fault = s.fault := rfl
@[simp] theorem State.advance_codeMem (s : State) (n : Nat) : (s.advance n).codeMem = s.codeMem := rfl
@[simp] theorem State.advance_gfxMem (s : State) (n : Nat) : (s.advance n).gfxMem = s.gfxMem := rfl
@[simp] theorem State.advance_trace (s : State) (n : Nat) : (s.advance n).trace = s.trace := rfl

/-! ## State.emit -/

@[simp] theorem State.emit_a (s : State) (evs : List Event) : (s.emit evs).a = s.a := rfl
@[simp] theorem State.emit_x (s : State) (evs : List Event) : (s.emit evs).x = s.x := rfl
@[simp] theorem State.emit_pc (s : State) (evs : List Event) : (s.emit evs).pc = s.pc := rfl
@[simp] theorem State.emit_codeSize (s : State) (evs : List Event) : (s.emit evs).codeSize = s.codeSize := rfl
@[simp] theorem State.emit_entryPoint (s : State) (evs : List Event) : (s.emit evs).entryPoint = s.entryPoint := rfl
@[simp] theorem State.emit_fault (s : State) (evs : List Event) : (s.emit evs).fault = s.fault := rfl
@[simp] theorem State.emit_codeMem (s : State) (evs : List Event) : (s.emit evs).codeMem = s.codeMem := rfl
@[simp] theorem State.emit_gfxMem (s : State) (evs : List Event) : (s.emit evs).gfxMem = s.gfxMem := rfl
@[simp] theorem State.emit_trace (s : State) (evs : List Event) : (s.emit evs).trace = s.trace ++ evs := rfl

/-! ## takeMemFault -/

@[simp] theorem takeMemFault_a (s : State) (op : Byte) (addr : Nat) : (takeMemFault s op addr).a = s.a := rfl
@[simp] theorem takeMemFault_x (s : State) (op : Byte) (addr : Nat) : (takeMemFault s op addr).x = s.x := rfl
@[simp] theorem takeMemFault_pc (s : State) (op : Byte) (addr : Nat) : (takeMemFault s op addr).pc = s.pc := rfl
@[simp] theorem takeMemFault_codeSize (s : State) (op : Byte) (addr : Nat) : (takeMemFault s op addr).codeSize = s.codeSize := rfl
@[simp] theorem takeMemFault_entryPoint (s : State) (op : Byte) (addr : Nat) : (takeMemFault s op addr).entryPoint = s.entryPoint := rfl
@[simp] theorem takeMemFault_fault (s : State) (op : Byte) (addr : Nat) : (takeMemFault s op addr).fault = ⟨.memFault, s.pc, op, BitVec.ofNat 16 addr⟩ := rfl
@[simp] theorem takeMemFault_codeMem (s : State) (op : Byte) (addr : Nat) : (takeMemFault s op addr).codeMem = s.codeMem := rfl
@[simp] theorem takeMemFault_gfxMem (s : State) (op : Byte) (addr : Nat) : (takeMemFault s op addr).gfxMem = s.gfxMem := rfl
@[simp] theorem takeMemFault_trace (s : State) (op : Byte) (addr : Nat) : (takeMemFault s op addr).trace = s.trace := rfl

/-! ## commitLoad -/

@[simp] theorem commitLoad_a (S : List Byte) (s : State) : (commitLoad S s).a = s.a := rfl
@[simp] theorem commitLoad_x (S : List Byte) (s : State) : (commitLoad S s).x = s.x := rfl
@[simp] theorem commitLoad_pc (S : List Byte) (s : State) : (commitLoad S s).pc = 0 := rfl
@[simp] theorem commitLoad_codeSize (S : List Byte) (s : State) : (commitLoad S s).codeSize = BitVec.ofNat 16 (min (codeLength S) Config.codeMemSize) := rfl
@[simp] theorem commitLoad_entryPoint (S : List Byte) (s : State) : (commitLoad S s).entryPoint = (cartHeader S).entryPoint := rfl
@[simp] theorem commitLoad_fault (S : List Byte) (s : State) : (commitLoad S s).fault = s.fault := rfl
@[simp] theorem commitLoad_codeMem (S : List Byte) (s : State) : (commitLoad S s).codeMem = Memory.writeRange Config.codeMemSize s.codeMem 0 (codePayload S) := rfl
@[simp] theorem commitLoad_gfxMem (S : List Byte) (s : State) : (commitLoad S s).gfxMem = Memory.writeRange Config.gfxMemSize s.gfxMem 0 (gfxPayload S) := rfl
@[simp] theorem commitLoad_trace (S : List Byte) (s : State) : (commitLoad S s).trace = s.trace := rfl

/-! ## State.withFetchWord -/

@[simp] theorem State.withFetchWord_a (s : State) (nbits w : Nat) : (s.withFetchWord nbits w).a = s.a := rfl
@[simp] theorem State.withFetchWord_x (s : State) (nbits w : Nat) : (s.withFetchWord nbits w).x = s.x := rfl
@[simp] theorem State.withFetchWord_pc (s : State) (nbits w : Nat) : (s.withFetchWord nbits w).pc = BitVec.ofNat 16 (placeAt s) := rfl
@[simp] theorem State.withFetchWord_codeSize (s : State) (nbits w : Nat) : (s.withFetchWord nbits w).codeSize = BitVec.ofNat 16 (max s.codeSize.toNat (placeAt s + max 1 ((nbits + 7) / 8))) := rfl
@[simp] theorem State.withFetchWord_entryPoint (s : State) (nbits w : Nat) : (s.withFetchWord nbits w).entryPoint = s.entryPoint := rfl
@[simp] theorem State.withFetchWord_fault (s : State) (nbits w : Nat) : (s.withFetchWord nbits w).fault = FaultRecord.clear := rfl
@[simp] theorem State.withFetchWord_codeMem (s : State) (nbits w : Nat) : (s.withFetchWord nbits w).codeMem = Memory.writeRange Config.codeMemSize s.codeMem (placeAt s) (wordBytes nbits w) := rfl
@[simp] theorem State.withFetchWord_gfxMem (s : State) (nbits w : Nat) : (s.withFetchWord nbits w).gfxMem = s.gfxMem := rfl
@[simp] theorem State.withFetchWord_trace (s : State) (nbits w : Nat) : (s.withFetchWord nbits w).trace = s.trace := rfl

/-! ## reset -/

@[simp] theorem State.reset_a : State.reset.a = 0 := rfl
@[simp] theorem State.reset_x : State.reset.x = 0 := rfl
@[simp] theorem State.reset_pc : State.reset.pc = 0 := rfl
@[simp] theorem State.reset_codeSize : State.reset.codeSize = 0 := rfl
@[simp] theorem State.reset_entryPoint : State.reset.entryPoint = 0 := rfl
@[simp] theorem State.reset_fault : State.reset.fault = FaultRecord.clear := rfl
@[simp] theorem State.reset_codeMem : State.reset.codeMem = [] := rfl
@[simp] theorem State.reset_gfxMem : State.reset.gfxMem = [] := rfl
@[simp] theorem State.reset_trace : State.reset.trace = [] := rfl

@[simp] theorem FaultRecord.clear_kind : FaultRecord.clear.kind = .none := rfl
@[simp] theorem FaultRecord.clear_pc : FaultRecord.clear.pc = 0 := rfl
@[simp] theorem FaultRecord.clear_opcode : FaultRecord.clear.opcode = 0 := rfl
@[simp] theorem FaultRecord.clear_addr : FaultRecord.clear.addr = 0 := rfl

end Sys2Proof.Machine
end

