-- ==== Sys2Proof/Laws/Ops.lean ====
section
/-! SUPPORT. What each shared operation can do, said once: the run status, the bounds-checked reads, the
operand check of a meaning, the register writes' values, and the fetch. -/

namespace Sys2Proof.Machine

/-! ## Run status -/

theorem status_running_iff (s : State) :
    s.status = .running ↔ s.fault.kind ≠ .memFault ∧ s.pc.toNat < s.codeSize.toNat := by
  unfold State.status
  split
  · simp_all
  · split <;> simp_all

theorem status_halted_iff (s : State) :
    s.status = .halted ↔ s.fault.kind ≠ .memFault ∧ s.codeSize.toNat ≤ s.pc.toNat := by
  unfold State.status
  split
  · simp_all
  · split <;> simp_all

theorem status_faulted_iff (s : State) : s.status = .faulted ↔ s.fault.kind = .memFault := by
  unfold State.status
  split
  · simp_all
  · split <;> simp_all

theorem FaultKind.ne_memFault_iff (k : FaultKind) : k ≠ .memFault ↔ k = .none := by
  cases k <;> simp

/-! ## Bounds-checked reads -/

theorem memRead_ok {s : State} {sp : Space} {a n : Nat} (h : a + n ≤ sp.size) :
    memRead s sp a n = .ok (readBytes (s.mem sp) a n) := by simp [memRead, h]

theorem memRead_error {s : State} {sp : Space} {a n : Nat} (h : sp.size < a + n) :
    memRead s sp a n = .error ⟨sp, a⟩ := by
  have : ¬ a + n ≤ sp.size := by omega
  simp [memRead, this]

@[simp] theorem Space.size_code : Space.size .code = 32768 := rfl
@[simp] theorem Space.size_gfx : Space.size .gfx = 65536 := rfl

/-- One operand read: the commit where it is in bounds, else `MemFault` at its offset. -/
theorem withOperands_one {s c : State} {op : Byte} {n : Nat} (h : operandWidths op = [n]) :
    withOperands s op c =
      if s.pc.toNat + 1 + n ≤ Config.codeMemSize then c else takeMemFault s op (s.pc.toNat + 1) := by
  unfold withOperands
  rw [h]
  by_cases h1 : s.pc.toNat + 1 + n ≤ Config.codeMemSize
  · simp [readOperands, memRead, Space.size, h1]
  · simp [readOperands, memRead, Space.size, h1]

/-- Two operand reads: the commit where both are in bounds, else `MemFault` at the first that fails. -/
theorem withOperands_two {s c : State} {op : Byte} {n k : Nat} (h : operandWidths op = [n, k]) :
    withOperands s op c =
      if s.pc.toNat + 1 + n + k ≤ Config.codeMemSize then c
      else if s.pc.toNat + 1 + n ≤ Config.codeMemSize then takeMemFault s op (s.pc.toNat + 1 + n)
      else takeMemFault s op (s.pc.toNat + 1) := by
  unfold withOperands
  rw [h]
  by_cases h2 : s.pc.toNat + 1 + n + k ≤ Config.codeMemSize
  · have h1 : s.pc.toNat + 1 + n ≤ Config.codeMemSize := by omega
    simp [readOperands, memRead, Space.size, h1, h2]
  · by_cases h1 : s.pc.toNat + 1 + n ≤ Config.codeMemSize
    · simp [readOperands, memRead, Space.size, h1, h2]
    · simp [readOperands, memRead, Space.size, h1, h2]

@[simp] theorem operandWidths_setA : operandWidths 0x01 = [1] := rfl
@[simp] theorem operandWidths_setX : operandWidths 0x02 = [2] := rfl
@[simp] theorem operandWidths_jmp : operandWidths 0x04 = [2] := rfl
@[simp] theorem operandWidths_drawBtp : operandWidths 0x08 = [2, 2] := rfl

/-- Whatever the operands, `withOperands` commits or takes `MemFault`. -/
theorem withOperands_cases (s c : State) (op : Byte) :
    withOperands s op c = c ∨ ∃ addr, withOperands s op c = takeMemFault s op addr := by
  unfold withOperands
  split
  · exact .inr ⟨_, rfl⟩
  · exact .inl rfl

/-! ## Fetch -/

theorem codeBytes_length_le (s : State) (a n : Nat) : (codeBytes s a n).length ≤ n := by
  induction n generalizing a with
  | zero => simp [codeBytes]
  | succ n ih =>
    simp only [codeBytes]
    split
    · have := ih (a + 1)
      simp only [List.length_cons]
      omega
    · simp

/-- Where the `n` bytes are all in `CODE`, `codeBytes` is the read of them. -/
theorem codeBytes_eq_readBytes (s : State) (a n : Nat) (h : a + n ≤ Config.codeMemSize) :
    codeBytes s a n = readBytes s.codeMem a n := by
  induction n generalizing a with
  | zero => rfl
  | succ n ih =>
    have ha : a < Config.codeMemSize := by omega
    simp only [codeBytes, readBytes, ha, if_true, ih (a + 1) (by omega)]

/-- The bytes from `a` on: as many of `n` as `CODE` has. -/
theorem codeBytes_eq (s : State) (a n : Nat) :
    codeBytes s a n = readBytes s.codeMem a (min n (Config.codeMemSize - a)) := by
  induction n generalizing a with
  | zero => simp [codeBytes, readBytes]
  | succ n ih =>
    simp only [codeBytes]
    split
    · rename_i h
      obtain ⟨k, hk⟩ : ∃ k, min (n + 1) (Config.codeMemSize - a) = k + 1 :=
        ⟨min (n + 1) (Config.codeMemSize - a) - 1, by omega⟩
      have hk' : min n (Config.codeMemSize - (a + 1)) = k := by omega
      rw [hk, ih, hk']
      rfl
    · rename_i h
      have : min (n + 1) (Config.codeMemSize - a) = 0 := by omega
      rw [this]
      rfl

/-- Every decode consumes the bytes of one well-formed instruction, whose opcode is the first byte. -/
theorem decode_opcode {bytes rest : List Byte} {i : Instr} (h : decode bytes = .ok (i, rest)) :
    ∃ tail, bytes = i.opcode :: tail := by
  unfold decode at h
  split at h
  · cases h
  · rename_i op tail
    refine ⟨tail, ?_⟩
    congr 1
    repeat' split at h
    all_goals first | (cases h; done) | (cases h; simp_all [Instr.opcode])

/-- The one place where a decode fails on a nonempty list: an operand's bytes are not all there. -/
theorem decode_truncated {bytes : List Byte} {op : Byte} {start : Nat}
    (h : decode bytes = .error (.truncated op start)) :
    ∃ tail, bytes = op :: tail ∧
      ((op = 0x01 ∧ start = 1 ∧ tail.length = 0) ∨ (op = 0x02 ∧ start = 1 ∧ tail.length < 2) ∨
        (op = 0x04 ∧ start = 1 ∧ tail.length < 2) ∨ (op = 0x08 ∧ start = 1 ∧ tail.length < 2) ∨
        (op = 0x08 ∧ start = 3 ∧ 2 ≤ tail.length ∧ tail.length < 4)) := by
  unfold decode at h
  split at h
  · cases h
  · rename_i op' tail
    split at h
    · cases h
    · split at h
      · split at h
        · cases h
        · rename_i h0 h1 r hr
          cases h
          refine ⟨tail, rfl, .inl ⟨h1, rfl, ?_⟩⟩
          cases tail with
          | nil => rfl
          | cons b r => exact absurd rfl (hr b r)
      · split at h
        · split at h
          · cases h
          · rename_i h2 r hr
            cases h
            refine ⟨tail, rfl, .inr (.inl ⟨h2, rfl, ?_⟩)⟩
            rcases tail with _ | ⟨b, _ | ⟨c, r⟩⟩
            · simp
            · simp
            · exact absurd rfl (hr b c r)
        · split at h
          · split at h
            · cases h
            · rename_i h4 r hr
              cases h
              refine ⟨tail, rfl, .inr (.inr (.inl ⟨h4, rfl, ?_⟩))⟩
              rcases tail with _ | ⟨b, _ | ⟨c, r⟩⟩
              · simp
              · simp
              · exact absurd rfl (hr b c r)
          · split at h
            · rename_i h8
              split at h
              · cases h
              · rename_i b c r hr
                cases h
                refine ⟨_, rfl, .inr (.inr (.inr (.inr ⟨h8, rfl, by simp, ?_⟩)))⟩
                rcases r with _ | ⟨d, _ | ⟨e, r⟩⟩
                · simp
                · simp
                · simp_all
              · rename_i hr1 hr2
                cases h
                refine ⟨tail, rfl, .inr (.inr (.inr (.inl ⟨h8, rfl, ?_⟩)))⟩
                rcases tail with _ | ⟨b, _ | ⟨c, r⟩⟩
                · simp
                · simp
                · exact absurd rfl (hr2 _ _ _)
            · split at h <;> cases h

@[simp] theorem readBytes_length (m : Memory) (a n : Nat) : (readBytes m a n).length = n := by
  induction n generalizing a with
  | zero => rfl
  | succ n ih => simp [readBytes, ih]

/-- With a byte at `PC` there is an opcode: the fetch is an instruction that starts with that byte, or an
instruction whose operand passes the end of `CODE`, at the offset R224's table gives. -/
theorem fetchInstr_cases (s : State) (hp : s.pc.toNat < Config.codeMemSize) :
    (∃ i, fetchInstr s = .ok i ∧ i.opcode = s.codeMem.read s.pc.toNat) ∨
    (∃ op start, fetchInstr s = .error (.truncated op start) ∧ op = s.codeMem.read s.pc.toNat ∧
      op ∈ ([0x01, 0x02, 0x04, 0x08] : List Byte) ∧
      (s.pc.toNat + start = Config.codeMemSize - 1 ∨ s.pc.toNat + start = Config.codeMemSize)) := by
  have hb : ∃ tail, codeBytes s s.pc.toNat Config.maxInstrBytes = s.codeMem.read s.pc.toNat :: tail ∧
      tail.length = min 4 (Config.codeMemSize - 1 - s.pc.toNat) := by
    rw [codeBytes_eq]
    obtain ⟨k, hk⟩ : ∃ k, min Config.maxInstrBytes (Config.codeMemSize - s.pc.toNat) = k + 1 :=
      ⟨min Config.maxInstrBytes (Config.codeMemSize - s.pc.toNat) - 1, by simp at *; omega⟩
    rw [hk]
    refine ⟨_, rfl, ?_⟩
    simp at *
    omega
  obtain ⟨tail, hb, hl⟩ := hb
  unfold fetchInstr
  rw [hb]
  cases hd : decode (s.codeMem.read s.pc.toNat :: tail) with
  | ok r =>
    obtain ⟨i, rest⟩ := r
    obtain ⟨_, ht⟩ := decode_opcode hd
    exact .inl ⟨i, rfl, (List.cons.inj ht).1.symm⟩
  | error e =>
    cases e with
    | noOpcode =>
      exfalso
      unfold decode at hd
      repeat' split at hd
      all_goals first | (cases hd; done) | simp_all
    | truncated op start =>
      obtain ⟨tl, ht, hc⟩ := decode_truncated hd
      obtain ⟨h1, rfl⟩ := List.cons.inj ht
      refine .inr ⟨op, start, rfl, h1.symm, ?_, ?_⟩
      · rcases hc with hc | hc | hc | hc | hc <;> simp [hc.1]
      · clear hb
        simp only [Config.codeMemSize] at *
        rcases hc with hc | hc | hc | hc | hc <;> omega

end Sys2Proof.Machine
end

