-- ==== Sys2Proof/Laws/PerInstr.lean ====
section
/-! SUPPORT. The per-instruction family `EncodedLength`: an instruction's encoding is its opcode byte and
as many operand bytes as its opcode's operand reads have (spec/30_encoding.md R90, R91). -/

namespace Sys2Proof.Laws

/-- The encoding starts with the opcode and has the length the opcode alone decides (R91). -/
def EncodedLength.Statement (i : Instr) : Prop :=
  i.wf = true → (encode i).head? = some i.opcode ∧ (encode i).length = instrLength i.opcode

theorem EncodedLength.nop : EncodedLength.Statement .nop := fun _ => ⟨rfl, rfl⟩

theorem EncodedLength.setA (imm8 : Byte) : EncodedLength.Statement (.setA imm8) :=
  fun _ => ⟨rfl, rfl⟩

theorem EncodedLength.setX (imm16 : Half) : EncodedLength.Statement (.setX imm16) :=
  fun _ => ⟨rfl, rfl⟩

theorem EncodedLength.jmp (target : Half) : EncodedLength.Statement (.jmp target) :=
  fun _ => ⟨rfl, rfl⟩

theorem EncodedLength.drawBtp (xraw yraw : Half) : EncodedLength.Statement (.drawBtp xraw yraw) :=
  fun _ => ⟨rfl, rfl⟩

theorem EncodedLength.halt : EncodedLength.Statement .halt := fun _ => ⟨rfl, rfl⟩

theorem EncodedLength.undef (opcode : Byte) : EncodedLength.Statement (.undef opcode) := by
  intro h
  refine ⟨rfl, ?_⟩
  simp only [Instr.wf, definedOpcodes, List.contains_eq_mem, List.mem_cons, List.not_mem_nil,
    or_false, Bool.not_eq_true', decide_eq_false_iff_not, not_or] at h
  obtain ⟨-, h1, h2, h4, h8, -⟩ := h
  show 1 = 1 + (operandWidths opcode).sum
  unfold operandWidths
  rw [if_neg h1, if_neg h2, if_neg h4, if_neg h8]
  rfl

end Sys2Proof.Laws
end

