-- ==== Sys2Proof/Laws/Step.lean ====
section
/-! SUPPORT. What each meaning answers, and what one step can do. -/

namespace Sys2Proof.Machine

/-! ## Each meaning as one equation -/

theorem exec_nop (s : State) : exec .nop s = .next (s.advance 1) := rfl

theorem exec_halt (s : State) : exec .halt s = .next (s.setPc s.codeSize) := rfl

theorem exec_undef (op : Byte) (s : State) : exec (.undef op) s = .next (s.advance 1) := rfl

theorem exec_setA (v : Byte) (s : State) :
    exec (.setA v) s = .next (if s.pc.toNat + 2 ≤ Config.codeMemSize then (s.setA v).advance 2
      else takeMemFault s 0x01 (s.pc.toNat + 1)) := by
  show Host.Outcome.next _ = _
  rw [withOperands_one operandWidths_setA]

theorem exec_setX (v : Half) (s : State) :
    exec (.setX v) s = .next (if s.pc.toNat + 3 ≤ Config.codeMemSize then (s.setX v).advance 3
      else takeMemFault s 0x02 (s.pc.toNat + 1)) := by
  show Host.Outcome.next _ = _
  rw [withOperands_one operandWidths_setX]

theorem exec_jmp (v : Half) (s : State) :
    exec (.jmp v) s = .next (if s.pc.toNat + 3 ≤ Config.codeMemSize then jumpTo s v
      else takeMemFault s 0x04 (s.pc.toNat + 1)) := by
  show Host.Outcome.next _ = _
  rw [withOperands_one operandWidths_jmp]

theorem exec_drawBtp (x y : Half) (s : State) :
    exec (.drawBtp x y) s = .next (
      if s.pc.toNat + 5 ≤ Config.codeMemSize then
        (s.advance 5).emit (decodeBitmap s.gfxMem (sext16 x) (sext16 y))
      else if s.pc.toNat + 3 ≤ Config.codeMemSize then takeMemFault s 0x08 (s.pc.toNat + 3)
      else takeMemFault s 0x08 (s.pc.toNat + 1)) := by
  show Host.Outcome.next _ = _
  rw [withOperands_two operandWidths_drawBtp]

/-- What one instruction can do: take `MemFault`, or commit a new `PC`, at most one register, and its
events (R126). -/
theorem exec_next_cases {i : Instr} {s t : State} (h : exec i s = .next t) :
    (∃ op addr, t = takeMemFault s op addr) ∨
    (∃ pc a x evs, t = { s with pc := pc, a := a, x := x, trace := s.trace ++ evs } ∧
      (a = s.a ∨ i = .setA a) ∧ (x = s.x ∨ i = .setX x) ∧
      (evs = [] ∨ (∃ p q, i = .drawBtp p q ∧ evs = decodeBitmap s.gfxMem (sext16 p) (sext16 q)) ∨
        (∃ v, i = .jmp v ∧ evs = [.diag .outOfBoundsJump v s.pc]))) := by
  cases i with
  | nop =>
    rw [exec_nop] at h
    cases h
    exact .inr ⟨_, s.a, s.x, [], by rw [List.append_nil]; rfl, .inl rfl, .inl rfl, .inl rfl⟩
  | halt =>
    rw [exec_halt] at h
    cases h
    exact .inr ⟨_, s.a, s.x, [], by rw [List.append_nil]; rfl, .inl rfl, .inl rfl, .inl rfl⟩
  | undef op =>
    rw [exec_undef] at h
    cases h
    exact .inr ⟨_, s.a, s.x, [], by rw [List.append_nil]; rfl, .inl rfl, .inl rfl, .inl rfl⟩
  | setA v =>
    rw [exec_setA] at h
    cases h
    split
    · exact .inr ⟨_, v, s.x, [], by rw [List.append_nil]; rfl, .inr rfl, .inl rfl, .inl rfl⟩
    · exact .inl ⟨_, _, rfl⟩
  | setX v =>
    rw [exec_setX] at h
    cases h
    split
    · exact .inr ⟨_, s.a, v, [], by rw [List.append_nil]; rfl, .inl rfl, .inr rfl, .inl rfl⟩
    · exact .inl ⟨_, _, rfl⟩
  | jmp v =>
    rw [exec_jmp] at h
    cases h
    split
    · unfold jumpTo
      split
      · exact .inr ⟨_, s.a, s.x, [], by rw [List.append_nil]; rfl, .inl rfl, .inl rfl, .inl rfl⟩
      · exact .inr ⟨_, s.a, s.x, _, rfl, .inl rfl, .inl rfl, .inr (.inr ⟨v, rfl, rfl⟩)⟩
    · exact .inl ⟨_, _, rfl⟩
  | drawBtp x y =>
    rw [exec_drawBtp] at h
    cases h
    split
    · exact .inr ⟨_, s.a, s.x, _, rfl, .inl rfl, .inl rfl, .inr (.inl ⟨x, y, rfl, rfl⟩)⟩
    · split <;> exact .inl ⟨_, _, rfl⟩

/-! ## One step -/

theorem step_of_halted {s : State} (h : s.status = .halted) : step s = .next s := by
  simp [step, cycle, h]

theorem step_of_faulted {s : State} (h : s.status = .faulted) : step s = .next s := by
  simp [step, cycle, h]

theorem step_of_fetch {s : State} {i : Instr} (h : s.status = .running) (hf : fetchInstr s = .ok i) :
    step s = exec i s := by
  simp [step, cycle, h, hf]

theorem step_of_truncated {s : State} {op : Byte} {start : Nat} (h : s.status = .running)
    (hf : fetchInstr s = .error (.truncated op start)) :
    step s = .next (takeMemFault s op (s.pc.toNat + start)) := by
  simp [step, cycle, h, hf]

/-- What one step can do (R121): nothing while not running; `MemFault` where the operands are not all in
`CODE`; otherwise the meaning of the instruction at `PC`. -/
theorem step_next_cases {s t : State} (h : step s = .next t) :
    (s.status ≠ .running ∧ t = s) ∨
    (s.status = .running ∧ ∃ i, fetchInstr s = .ok i ∧ exec i s = .next t) ∨
    (s.status = .running ∧ ∃ op start, fetchInstr s = .error (.truncated op start) ∧
      t = takeMemFault s op (s.pc.toNat + start)) := by
  unfold step cycle at h
  split at h
  · rename_i hs
    cases h
    exact .inl ⟨by simp [hs], rfl⟩
  · rename_i hs
    cases h
    exact .inl ⟨by simp [hs], rfl⟩
  · rename_i hs
    split at h
    · exact .inr (.inl ⟨hs, _, by assumption, h⟩)
    · cases h
      exact .inr (.inr ⟨hs, _, _, by assumption, rfl⟩)
    · cases h

end Sys2Proof.Machine
end

