-- ==== Sys2Proof/Laws/Run.lean ====
section
/-! SUPPORT. Runs, frames and the ports: their defining equations, and a run taken apart after its first
step. -/

namespace Sys2Proof

open Machine

@[simp] theorem steps_zero (s : State) : steps 0 s = .next s := rfl

/-- A run of one more step. -/
theorem steps_succ (n : Nat) (s : State) :
    steps (n + 1) s =
      match step s with
      | .next t => steps n t
      | .fault r => .fault r
      | .refused r => .refused r := rfl

theorem steps_succ_of_step {n : Nat} {s t : State} (h : step s = .next t) :
    steps (n + 1) s = steps n t := by
  rw [steps_succ, h]

/-- A run that ends in a state had a first step. -/
theorem steps_succ_next {n : Nat} {s u : State} (h : steps (n + 1) s = .next u) :
    ∃ t, step s = .next t ∧ steps n t = .next u := by
  rw [steps_succ] at h
  cases hs : step s with
  | next t => exact ⟨t, rfl, by rwa [hs] at h⟩
  | fault r => rw [hs] at h; cases h
  | refused r => rw [hs] at h; cases h

@[simp] theorem boot_some (S : List Byte) : boot (some S) = loadImage S State.reset := rfl

/-- A load that passes the checks commits. -/
theorem loadImage_ok {S : List Byte} (h : loadResult S = .ok) (s : State) :
    loadImage S s = (commitLoad S s, .ok) := by
  simp [loadImage, h]

/-- A load that fails a check changes nothing (R267). -/
theorem loadImage_failed {S : List Byte} (h : loadResult S ≠ .ok) (s : State) :
    loadImage S s = (s, loadResult S) := by
  unfold loadImage
  split
  · exact absurd (by assumption) h
  · rfl

/-- The header's fields are read little-endian (R263). -/
theorem streamLong_toNat (S : List Byte) (k : Nat) :
    (streamLong S k).toNat = (S.getD k 0).toNat + 2 ^ 8 * (S.getD (k + 1) 0).toNat +
      2 ^ 16 * (S.getD (k + 2) 0).toNat + 2 ^ 24 * (S.getD (k + 3) 0).toNat :=
  le32_toNat _ _ _ _

theorem cartHeader_entryPoint (S : List Byte) :
    (cartHeader S).entryPoint = streamLong S 10 := rfl
theorem cartHeader_codeLength (S : List Byte) :
    (cartHeader S).codeLength = streamLong S 14 := rfl
theorem cartHeader_gfxLength (S : List Byte) :
    (cartHeader S).gfxLength = streamLong S 18 := rfl

@[simp] theorem powerOn_core : powerOn.core = State.reset := rfl
@[simp] theorem powerOn_loadOpen : powerOn.loadOpen = true := rfl

/-- The load port while it may be used (R269). -/
theorem loadPort_open {h : Session} (ho : h.loadOpen = true) (hc : h.core = State.reset) (S : List Byte) :
    loadPort S h = .next (⟨(loadImage S h.core).1, false⟩, (loadImage S h.core).2) :=
  if_pos ⟨ho, hc⟩

/-- The load port once it has been used, or a step requested (R269). -/
theorem loadPort_closed {h : Session} (ho : h.loadOpen = false) (S : List Byte) :
    loadPort S h = .refused .loadOutsideReset :=
  if_neg fun hn => by rw [ho] at hn; exact absurd hn.1 (by decide)

/-- A step request where the step has a next state. -/
theorem stepPort_of_step {h : Session} {t : State} (hs : step h.core = .next t) :
    stepPort h = .next (⟨t, false⟩, ⟨t.status, eventsSince h.core t⟩) := by
  simp only [stepPort, hs]

@[simp] theorem hostRun_nil (h : Session) : hostRun [] h = .next (h, []) := rfl

/-- Requests after one that is answered. -/
theorem hostRun_cons {q : HostRequest} {h k : Session} {r : HostResponse}
    (hq : hostPort q h = .next (k, r)) (qs : List HostRequest) :
    hostRun (q :: qs) h =
      match hostRun qs k with
      | .next (l, rs) => .next (l, r :: rs)
      | .fault e => .fault e
      | .refused e => .refused e := by
  cases hr : hostRun qs k <;> simp only [hostRun, hq, hr]

/-- A request that is refused ends the requests. -/
theorem hostRun_cons_refused {q : HostRequest} {h : Session} {e : Refusal}
    (hq : hostPort q h = .refused e) (qs : List HostRequest) : hostRun (q :: qs) h = .refused e := by
  simp only [hostRun, hq]

end Sys2Proof
end

