-- ==== Sys2Proof/Tests/Slice0.lean ====
section
/-! SUPPORT. The model's own tests: well-formedness, decoding of words written from
spec/30_encoding.md, one step per instruction with results taken from spec/95_test_vectors.md, and for
every statement with hypotheses a witness that meets them. -/

namespace Sys2Proof.Tests

open Sys2Proof.Machine

/-- A reset machine with the given `CodeMem` cells, `CodeSize` and `PC`. -/
def at_ (code : Memory) (codeSize pc : Half) : State :=
  { State.reset with codeMem := code, codeSize := codeSize, pc := pc }

/-- The next state, where a step gives one. -/
def nextOf : Host.Outcome State Fault Refusal → Option State
  | .next s => some s
  | _ => none

/-! ## Well-formedness: an ill-formed term for the one check -/

theorem test_wf_refuses_defined_opcode : (Instr.undef 0x01).wf = false := by decide
theorem test_wf_refuses_each_defined_opcode :
    definedOpcodes.all (fun op => !(Instr.undef op).wf) = true := by decide
theorem test_wf_accepts_undefined_opcode : (Instr.undef 0x03).wf = true := by decide

/-! ## Decoding: the words of R106, written out from R93 to R96 -/

theorem test_decode_nop : decode [0x00] = .ok (.nop, []) := by decide
theorem test_decode_setA : decode [0x01, 0x2A] = .ok (.setA 42, []) := by decide
theorem test_decode_setX : decode [0x02, 0x34, 0x12] = .ok (.setX 0x1234, []) := by decide
theorem test_decode_jmp : decode [0x04, 0x05, 0x00] = .ok (.jmp 5, []) := by decide
theorem test_decode_drawBtp :
    decode [0x08, 0x0A, 0x00, 0xFD, 0xFF] = .ok (.drawBtp 10 (BitVec.ofInt 16 (-3)), []) := by decide
theorem test_decode_halt : decode [0xFF] = .ok (.halt, []) := by decide
theorem test_decode_undef : decode [0x0C, 0x05] = .ok (.undef 0x0C, [0x05]) := by decide
theorem test_decode_truncated_y : decode [0x08, 0, 0, 0] = .error (.truncated 0x08 3) := by decide
theorem test_decode_empty : decode [] = .error .noOpcode := by decide
/-- R102: every byte value decodes, and to an instruction of that opcode. -/
theorem test_every_opcode_decodes :
    ((List.range 256).all fun k =>
      match decodeTableWord 8 k with
      | some i => i.wf && i.opcode == BitVec.ofNat 8 k
      | none => false) = true := by decide +kernel
theorem test_encode_drawBtp :
    encode (.drawBtp 0x8000 0x7FFF) = [0x08, 0x00, 0x80, 0xFF, 0x7F] := by decide

/-! ## One step (spec/95_test_vectors.md) -/

/-- L2, NOP row 1. -/
theorem test_nop : (nextOf (step (at_ [] 2 0))).map (·.pc) = some 1 := by decide
/-- L2, NOP at the last byte of `CODE`. -/
theorem test_nop_last :
    (nextOf (step (at_ [] 32768 32767))).map (fun t => (t.pc, t.status)) = some (32768, .halted) := by
  decide
/-- V-L1-7, step 1. -/
theorem test_setA :
    (nextOf (step (at_ [(0, 0x01), (1, 0x2A), (2, 0xFF)] 3 0))).map (fun t => (t.a, t.pc)) =
      some (42, 2) := by decide
/-- L2, SET_A row 5. -/
theorem test_setA_fault :
    (nextOf (step (at_ [(32767, 0x01)] 32768 32767))).map (fun t => (t.fault, t.pc)) =
      some (⟨.memFault, 32767, 0x01, 32768⟩, 32767) := by decide
/-- V-L1-3, row 3. -/
theorem test_setX :
    (nextOf (step (at_ [(0, 0x02), (1, 0x34), (2, 0x12)] 3 0))).map (fun t => (t.x, t.pc)) =
      some (4660, 3) := by decide
/-- L3, P5: the high operand byte lies past `CodeSize`. -/
theorem test_setX_past_codeSize :
    (nextOf (step (at_ [(0, 0x02), (1, 0x05)] 2 0))).map (fun t => (t.x, t.pc, t.status)) =
      some (5, 3, .halted) := by decide
/-- V-L1-4, row 1. -/
theorem test_jmp :
    (nextOf (step (at_ [(0, 0x04), (1, 0x05), (5, 0xFF)] 6 0))).map (fun t => (t.pc, t.trace)) =
      some (5, []) := by decide
/-- V-L1-4, row 3. -/
theorem test_jmp_out_of_bounds :
    (nextOf (step (at_ [(0, 0x04), (1, 0xFF), (2, 0xFF), (5, 0xFF)] 6 0))).map
      (fun t => (t.pc, t.trace)) = some (6, [.diag .outOfBoundsJump 65535 0]) := by decide
/-- L2, HALT row 2. -/
theorem test_halt :
    (nextOf (step (at_ [(1, 0xFF)] 4 1))).map (fun t => (t.pc, t.status)) = some (4, .halted) := by
  decide
/-- L2, undefined opcodes row 2. -/
theorem test_undef :
    (nextOf (step (at_ [(0, 0x0C), (1, 0x05)] 3 0))).map (fun t => (t.a, t.x, t.pc)) =
      some (0, 0, 1) := by decide
/-- V-L1-6 at origin (3, -1): 64 unlit pixels, the last at (20, 12). -/
theorem test_drawBtp_zero_tile :
    (nextOf (step { at_ [(0, 0x08), (1, 0x03), (3, 0xFF), (4, 0xFF), (5, 0xFF)] 6 0 with
      gfxMem := [(0, 8), (2, 8)] })).map
        (fun t => (t.trace.length, t.trace.all fun e => match e with
          | .pixel _ _ side c => side == 2 && c == .unlit
          | _ => false, t.trace.getLast?)) =
      some (64, true, some (.pixel 20 12 2 .unlit)) := by decide
/-- L2, DRAW_BTP row 5: the high nibble is the left pixel. -/
theorem test_drawBtp_nibbles :
    (decodeBitmap [(0, 8), (2, 8), (4, 0xF0), (5, 0x0F)] 0 0).take 4 =
      [.pixel 0 0 2 .lit, .pixel 2 0 2 .unlit, .pixel 4 0 2 .unlit, .pixel 6 0 2 .lit] := by decide

/-! ## The load port, the assembler, the placed word -/

/-- V-L1-7: the end-to-end image. -/
def image : List Byte := Config.magic ++ [0, 0, 0, 0, 3, 0, 0, 0, 0, 0, 0, 0, 0x01, 0x2A, 0xFF]

theorem test_load :
    boot (some image) = (at_ [(0, 0x01), (1, 0x2A), (2, 0xFF)] 3 0, .ok) := by decide
/-- V-L1-7: two steps run the loaded program to its end. -/
theorem test_run_image :
    (nextOf (steps 2 (at_ [(0, 0x01), (1, 0x2A), (2, 0xFF)] 3 0))).map (fun t => (t.a, t.pc, t.status)) =
      some (42, 3, .halted) := by decide
/-- L2, the load port, rows 5 and 7. -/
theorem test_load_failures :
    loadResult (Config.magic ++ [0, 0, 0, 0, 3, 0, 0, 0, 0, 0, 0, 0, 0x01, 0x2A]) = .truncatedImage ∧
      loadResult (Config.magic ++ [0, 0, 0, 0, 1, 0, 0, 0, 255, 255, 255, 255, 1]) =
        .invalidLength := by decide
/-- L2, the load port, row 10: the entry point is kept and not used. -/
theorem test_load_entry_point :
    ((fun s => (signed32 s.entryPoint, s.pc, s.codeSize))
      (boot (some (Config.magic ++ [0xFB, 255, 255, 255, 1, 0, 0, 0, 0, 0, 0, 0, 0xFF]))).1) =
      (-5, 0, 1) := by decide
/-- R106 and R104: a label, a comment, a signed operand and the directive. -/
theorem test_assemble :
    assemble "top: SET_A 42 ; load\nDRAW_BTP 10, -3\nJMP top\n.byte 0x03".toList =
      some [0x01, 0x2A, 0x08, 0x0A, 0x00, 0xFD, 0xFF, 0x04, 0x00, 0x00, 0x03] := by decide
/-- R104: a value outside its range is an error. -/
theorem test_assemble_range : assemble "SET_A 256".toList = none := by decide
theorem test_placed_word :
    (nextOf (step (State.reset.withFetchWord 16 0x2A01))).map (fun t => (t.a, t.pc)) =
      some (42, 2) := by decide

/-! ## Witnesses: each statement's hypotheses are met, clause by clause -/

/-- `NOP` at the last byte of `CODE`, with `CodeSize` after it. -/
theorem witness_NopOnlyAdvancesPc :
    (at_ [] 32768 32767).pc.toNat < Config.codeMemSize ∧
      (at_ [] 32768 32767).fault.kind = .none ∧
      (at_ [] 32768 32767).pc.toNat + 1 = (at_ [] 32768 32767).codeSize.toNat ∧
      StateInv (at_ [] 32768 32767) ∧ (at_ [] 32768 32767).status = .running ∧
      (at_ [] 32768 32767).codeMem.read (at_ [] 32768 32767).pc.toNat = 0 ∧
      (at_ [] 32768 32767).codeSize.toNat ≤ 32768 ∧
      (at_ [] 3 3).codeSize.toNat ≤ (at_ [] 3 3).pc.toNat := by decide

theorem witness_SetALoadsTheAccumulator :
    (at_ [] 32768 32766).pc.toNat + 1 < Config.codeMemSize ∧
      Config.codeMemSize ≤ (at_ [] 32768 32767).pc.toNat + 1 ∧
      StateInv (at_ [(32766, 0x01)] 32767 32766) ∧
      (at_ [(32766, 0x01)] 32767 32766).status = .running ∧
      (at_ [(32766, 0x01)] 32767 32766).codeMem.read 32766 = 0x01 ∧
      (at_ [(32766, 0x01)] 32767 32766).pc.toNat + 1 = 32767 ∧
      (at_ [(32766, 0x01)] 32767 32766).codeSize.toNat < Config.codeMemSize := by decide

theorem witness_SetXLoadsTheIndexRegister :
    (at_ [] 32768 32765).pc.toNat + 2 < Config.codeMemSize ∧
      Config.codeMemSize ≤ (at_ [] 32768 32766).pc.toNat + 2 ∧
      StateInv (at_ [(0, 0x02), (1, 0x05)] 2 0) ∧
      (at_ [(0, 0x02), (1, 0x05)] 2 0).status = .running ∧
      (at_ [(0, 0x02), (1, 0x05)] 2 0).codeMem.read 0 = 0x02 ∧
      (at_ [(0, 0x02), (1, 0x05)] 2 0).codeSize.toNat ≤
        (at_ [(0, 0x02), (1, 0x05)] 2 0).pc.toNat + 2 := by decide

/-- Targets `CodeSize - 1` and `CodeSize`, and an operand that passes `CODE`. -/
theorem witness_JmpJumpsOrHaltsWithADiagnostic :
    (at_ [] 6 0).pc.toNat + 2 < Config.codeMemSize ∧ (5 : Half).toNat < (at_ [] 6 0).codeSize.toNat ∧
      (at_ [] 6 0).codeSize.toNat ≤ (6 : Half).toNat ∧
      Config.codeMemSize ≤ (at_ [] 32768 32766).pc.toNat + 2 := by decide

/-- L2, JMP row 2. -/
theorem witness_JmpToItselfRunsForever :
    (at_ [(0, 0x04)] 3 0).status = .running ∧
      fetchInstr (at_ [(0, 0x04)] 3 0) = .ok (.jmp (at_ [(0, 0x04)] 3 0).pc) ∧
      (at_ [(0, 0x04)] 3 0).pc.toNat + 2 < Config.codeMemSize := by decide

theorem witness_HaltStopsAtCodeSize :
    (at_ [(0, 0xFF)] 1 0).fault.kind = .none ∧
      (at_ [(0, 0xFF)] 1 0).pc.toNat + 1 = (at_ [(0, 0xFF)] 1 0).codeSize.toNat := by decide

theorem witness_UndefinedOpcodeActsAsNop :
    (0x03 : Byte) ∉ definedOpcodes ∧ (0xFE : Byte) ∉ definedOpcodes ∧
      (at_ [] 32768 32767).pc.toNat < Config.codeMemSize := by decide

theorem witness_DrawBtpEmitsTheDecode :
    (at_ [] 32768 32763).pc.toNat + 4 < Config.codeMemSize ∧
      Config.codeMemSize ≤ (at_ [] 32768 32764).pc.toNat + 4 := by decide

theorem witness_MeaningTakesMemFaultByTheTable :
    (at_ [] 32768 32767).pc.toNat = 32767 ∧ ((0x01 : Byte), 32767, 32768) ∈ memFaultTable ∧
      ((0x02 : Byte), 32767, 32768) ∈ memFaultTable ∧ ((0x04 : Byte), 32767, 32768) ∈ memFaultTable ∧
      ((0x08 : Byte), 32767, 32768) ∈ memFaultTable := by decide

/-- L2, DRAW_BTP row 14: the state before the step meets the premises, and the step has a next state. -/
theorem witness_StepTakesMemFaultExactlyByTheTable :
    ∃ t, StateInv (at_ [(32764, 0x08)] 32768 32764) ∧
      (at_ [(32764, 0x08)] 32768 32764).status = .running ∧
      step (at_ [(32764, 0x08)] 32768 32764) = .next t ∧
      ((0x08 : Byte), 32764, 32767) ∈ memFaultTable :=
  ⟨_, by decide, by decide, rfl, by decide⟩

theorem witness_MemFaultCommitsNothingElse :
    ∃ t, step (at_ [(32767, 0x01)] 32768 32767) = .next t ∧
      t.fault ≠ (at_ [(32767, 0x01)] 32768 32767).fault := ⟨_, rfl, by decide⟩

theorem witness_StepRunsTheDecodedInstruction :
    (at_ [(0, 0x01), (1, 0x2A)] 3 0).status = .running ∧
      decode (codeBytes (at_ [(0, 0x01), (1, 0x2A)] 3 0) 0 Config.maxInstrBytes) =
        .ok (.setA 42, [0, 0, 0]) := by decide

theorem witness_StepRunsTheInstructionInMemory :
    (at_ [(32767, 0xFF)] 32768 32767).status = .running ∧ Instr.halt.wf = true ∧
      (at_ [(32767, 0xFF)] 32768 32767).pc.toNat + (encode .halt).length ≤ Config.codeMemSize ∧
      readBytes (at_ [(32767, 0xFF)] 32768 32767).codeMem 32767 (encode .halt).length =
        encode .halt := by decide

theorem witness_StatusTestsFaultThenHalt :
    (takeMemFault (at_ [] 3 0) 0x01 32768).fault.kind = .memFault ∧
      (at_ [] 3 3).fault.kind = .none ∧ (at_ [] 3 3).codeSize.toNat ≤ (at_ [] 3 3).pc.toNat ∧
      (at_ [] 3 2).pc.toNat < (at_ [] 3 2).codeSize.toNat := by decide

theorem witness_EndedCoreNeverChanges :
    Ended (at_ [] 3 3) ∧ Ended (takeMemFault (at_ [] 3 0) 0x01 32768) := by decide

/-- A committed step of each of the three kinds of `PC`: `HALT`, `JMP` and a fall-through. -/
theorem witness_PcAfterACommittedStep :
    (∃ t, StateInv (at_ [(0, 0xFF)] 3 0) ∧ (at_ [(0, 0xFF)] 3 0).status = .running ∧
      step (at_ [(0, 0xFF)] 3 0) = .next t ∧ t.fault = (at_ [(0, 0xFF)] 3 0).fault) ∧
    (∃ t, StateInv (at_ [(0, 0x04), (1, 0x03)] 3 0) ∧
      (at_ [(0, 0x04), (1, 0x03)] 3 0).status = .running ∧
      step (at_ [(0, 0x04), (1, 0x03)] 3 0) = .next t ∧
      t.fault = (at_ [(0, 0x04), (1, 0x03)] 3 0).fault) ∧
    (∃ t, StateInv (at_ [(0, 0x01)] 3 0) ∧ (at_ [(0, 0x01)] 3 0).status = .running ∧
      step (at_ [(0, 0x01)] 3 0) = .next t ∧ t.fault = (at_ [(0, 0x01)] 3 0).fault) :=
  ⟨⟨_, by decide, by decide, rfl, rfl⟩, ⟨_, by decide, by decide, rfl, rfl⟩,
    ⟨_, by decide, by decide, rfl, rfl⟩⟩

/-- L2, DRAW_BTP row 13, and a `SET_X` that ends at the last byte of `CODE`. -/
theorem witness_InstructionAcrossCodeSizeEndsHalted :
    StateInv (at_ [(0, 0x08)] 1 0) ∧ (at_ [(0, 0x08)] 1 0).status = .running ∧
      (at_ [(0, 0x08)] 1 0).codeMem.read 0 ∉ ([0x04, 0xFF] : List Byte) ∧
      (1 : Half).toNat < 0 + instrLength 0x08 ∧
      StateInv (at_ [(32765, 0x02)] 32766 32765) ∧
      (at_ [(32765, 0x02)] 32766 32765).status = .running ∧
      (32766 : Half).toNat < 32765 + instrLength 0x02 ∧
      32765 + instrLength 0x02 ≤ Config.codeMemSize :=
  ⟨by decide, by decide, by decide, by decide, by decide, by decide, by decide, by decide⟩

theorem witness_StepKeepsMemoryAndControlRegisters :
    ∃ t, step (at_ [(0, 0x01), (1, 0x2A)] 3 0) = .next t := ⟨_, rfl⟩

theorem witness_OnlySetAWritesAAndOnlySetXWritesX :
    (∃ t, step (at_ [(0, 0x01), (1, 0x2A)] 3 0) = .next t ∧
      t.a ≠ (at_ [(0, 0x01), (1, 0x2A)] 3 0).a) ∧
    (∃ t, step (at_ [(0, 0x02), (1, 0x2A)] 3 0) = .next t ∧
      t.x ≠ (at_ [(0, 0x02), (1, 0x2A)] 3 0).x) := ⟨⟨_, rfl, by decide⟩, ⟨_, rfl, by decide⟩⟩

/-- A step that emits an event. -/
theorem witness_StepAppendsItsEvents :
    ∃ t, step (at_ [(0, 0x04), (1, 0x06)] 6 0) = .next t ∧
      t.trace ≠ (at_ [(0, 0x04), (1, 0x06)] 6 0).trace := ⟨_, rfl, by decide⟩

/-- A run that writes `A` and keeps `X`. -/
theorem witness_NoStepReadsAOrX :
    ∃ t, steps 2 (at_ [(0, 0x01), (1, 0x2A), (2, 0xFF)] 3 0) = .next t ∧ t.a ≠ 0 ∧ t.x = 0 :=
  ⟨_, rfl, by decide, rfl⟩

theorem witness_EntryPointNeverAffectsExecution :
    (∃ t, boot (some image) = (t, .ok)) ∧
      ∃ t, steps 2 (at_ [(0, 0x01), (1, 0x2A), (2, 0xFF)] 3 0) = .next t :=
  ⟨⟨_, test_load⟩, ⟨_, rfl⟩⟩

theorem witness_StepKeepsTheInvariant :
    ∃ t, StateInv (at_ [(32767, 0x01)] 32768 32767) ∧
      step (at_ [(32767, 0x01)] 32768 32767) = .next t := ⟨_, by decide, rfl⟩

theorem witness_StepFromTheInvariantAlwaysCompletes :
    StateInv (at_ [(32767, 0x01)] 32768 32767) := by decide

theorem witness_DecodeOfEncodeIsTheInstruction :
    (Instr.drawBtp 0x8000 0x7FFF).wf = true ∧ (Instr.undef 0xFE).wf = true := by decide

theorem witness_EncodeOfDecodeIsTheBytes :
    decode [0x02, 0x34, 0x12, 0xFF] = .ok (.setX 0x1234, [0xFF]) := by decide

theorem witness_OpcodeAloneDecidesTheLength :
    instrLength 0x08 ≤ ([0x08, 0, 0, 0, 0] : List Byte).length ∧
      instrLength 0x03 ≤ ([0x03] : List Byte).length := by decide

theorem witness_OnlyTheSixOpcodesAreDefined :
    (0x03 : Byte) ∉ definedOpcodes ∧ (0xFE : Byte) ∉ definedOpcodes ∧ decode [0x03] = .ok (.undef 0x03, []) ∧ decode [0x00] = .ok (.nop, []) := by decide

theorem witness_PlacedWordIsTheNextInstruction :
    StateInv State.reset ∧ decodeTableWord 40 0x7FFF800008 = some (.drawBtp 0x8000 0x7FFF) := by
  decide

/-- A 16-bit read at the last two offsets of each buffer, and one past them. -/
theorem witness_ReadsCheckTheBufferLength :
    32766 + 2 - 1 < Config.codeMemSize ∧ Config.codeMemSize ≤ 32767 + 2 - 1 ∧
      65534 + 2 - 1 < Config.gfxMemSize ∧ Config.gfxMemSize ≤ 65535 + 2 - 1 := by decide

theorem witness_DataByteGivesLeftThenRightPixel : 65535 < Config.gfxMemSize := by decide

theorem witness_EmptyBitmapDrawsNothing :
    bitmapWidth [(2, 8)] = 0 ∧ bitmapHeight [(0, 8)] = 0 := by decide

theorem witness_DecodedCoordinatesAreBounded :
    (Event.pixel (-65536) (-65536) 2 .unlit) ∈
      decodeBitmap [(0, 8), (2, 8)] (0x8000 : Half).toInt (0x8000 : Half).toInt := by decide

/-- A header with `C` = 32769 and `G` = 65537, one more than each buffer holds, and its payloads. -/
def largeImage : List Byte :=
  Config.magic ++ ([0, 0, 0, 0, 0x01, 0x80, 0, 0, 0x01, 0, 0x01, 0] ++ List.replicate 98306 0xFF)

/-- V-L1-7, and an image past both clamps. -/
theorem witness_SuccessfulLoadWritesTheImage :
    loadResult image = .ok ∧ loadResult largeImage = .ok ∧
      Config.codeMemSize < codeLength largeImage ∧ Config.gfxMemSize < gfxLength largeImage := by
  have hc : codeLength largeImage = 32769 := rfl
  have hg : gfxLength largeImage = 65537 := rfl
  have hl : largeImage.length = 98328 := by
    simp only [largeImage, List.length_append, List.length_replicate]; rfl
  have ht : largeImage.take Config.magic.length = Config.magic := rfl
  refine ⟨by decide, ?_, by rw [hc]; decide, by rw [hg]; decide⟩
  unfold loadResult
  rw [hl, hc, hg, ht, if_neg (by decide), if_neg (fun h => h rfl), if_neg (by decide),
    if_neg (by decide), if_neg (by decide)]

theorem witness_FailedLoadChangesNothing : loadResult [] ≠ .ok := by decide

/-- V-L1-2, row 2: the comparison is byte for byte; and a stream under 10 bytes. -/
theorem witness_BadMagicIsInvalidFormat :
    ([0x62, 0x69, 0x72, 0x74, 0x68, 0x5F, 0x65, 0x78, 0x65, 0x63, 0, 0] : List Byte).take 10 ≠
      Config.magic ∧ (Config.magic.take 9).take 10 ≠ Config.magic := by decide

/-- An open port outside the reset state, and a used port in it. -/
theorem witness_LoadPortWorksOnlyInReset :
    (⟨at_ [] 3 0, true⟩ : Session).core ≠ State.reset ∧
      (⟨State.reset, false⟩ : Session).loadOpen = false := by decide

/-- A cartridge of 22 bytes with `C` = `G` = `E` = 0: its load leaves the reset state. -/
def emptyImage : List Byte := Config.magic ++ List.replicate 12 0

/-- R269: no second load, though the first left the core in its reset state; and no load after a step
request that changed nothing. -/
theorem test_second_load_refused :
    hostRun [.load emptyImage, .load emptyImage] powerOn = .refused .loadOutsideReset ∧
      hostRun [.step, .load emptyImage] powerOn = .refused .loadOutsideReset ∧
      hostRun [.load [], .load emptyImage] powerOn = .refused .loadOutsideReset := ⟨rfl, rfl, rfl⟩

theorem witness_LoadIsAnsweredOnceBeforeTheFirstStep :
    LoadsOnceFirst [.inspect, .load emptyImage] ∧
      ¬ LoadsOnceFirst [.load emptyImage, .load emptyImage] := by
  constructor
  · intro pre S post h q hq
    match pre, h with
    | [], _ => cases hq
    | [p], h =>
      obtain rfl := List.mem_singleton.1 hq
      exact .inl (List.cons.inj h).1.symm
    | _ :: _ :: pre, h =>
      have := congrArg List.length h
      simp at this
  · intro h
    have := h [.load emptyImage] emptyImage [] rfl _ (List.mem_singleton.2 rfl)
    simp at this

theorem witness_StepPortAnswersStatusAndEvents :
    ∃ t, step (⟨at_ [(0, 0x04), (1, 0x06)] 6 0, false⟩ : Session).core = .next t := ⟨_, rfl⟩

end Sys2Proof.Tests
end

section
/-! The 16-bit read of spec/20_memory.md: its bytes in R65's order, and its numeric value. -/

namespace Sys2Proof.Machine

/-- R65's equation of the read, stated once so that later proofs need not unfold it. -/
theorem Memory.read16_eq_le16 (m : Memory) (a : Nat) :
    m.read16 a = le16 (m.read a) (m.read (a + 1)) := rfl

/-- The value of two bytes fits a half, so no carry is lost (`le16_toNat`). -/
@[simp] theorem Memory.read16_toNat (m : Memory) (a : Nat) :
    (m.read16 a).toNat = (m.read a).toNat + 256 * (m.read (a + 1)).toNat := by
  rw [Memory.read16_eq_le16, le16_toNat]

end Sys2Proof.Machine

namespace Sys2Proof.Proofs

open Sys2Proof.Machine

/-- Settles O36: the byte order is the read's own definition, the value that of `le16`. -/
theorem sixteenBitReadsAreLittleEndian : Obligations.SixteenBitReadsAreLittleEndian := by
  intro m a
  exact ⟨m.read16_eq_le16 a, m.read16_toNat a⟩

end Sys2Proof.Proofs
end

section
/-! The decoder as one equation per opcode, and what the opcode byte alone decides: the length and the
mnemonic (spec/30_encoding.md R91 to R101). -/

namespace Sys2Proof

open Sys2Proof.Machine (le16)

theorem mem_definedOpcodes_iff {op : Byte} : op ∈ definedOpcodes ↔
    op = 0x00 ∨ op = 0x01 ∨ op = 0x02 ∨ op = 0x04 ∨ op = 0x08 ∨ op = 0xFF := by
  simp [definedOpcodes]

theorem wf_undef_iff {op : Byte} : (Instr.undef op).wf = true ↔ op ∉ definedOpcodes := by
  simp [Instr.wf]

/-! ## Decode, opcode by opcode -/

@[simp] theorem decode_nop (tail : List Byte) : decode (0x00 :: tail) = .ok (.nop, tail) := rfl

@[simp] theorem decode_setA (v : Byte) (tail : List Byte) :
    decode (0x01 :: v :: tail) = .ok (.setA v, tail) := rfl

@[simp] theorem decode_setX (b0 b1 : Byte) (tail : List Byte) :
    decode (0x02 :: b0 :: b1 :: tail) = .ok (.setX (le16 b0 b1), tail) := rfl

@[simp] theorem decode_jmp (b0 b1 : Byte) (tail : List Byte) :
    decode (0x04 :: b0 :: b1 :: tail) = .ok (.jmp (le16 b0 b1), tail) := rfl

@[simp] theorem decode_drawBtp (b0 b1 b2 b3 : Byte) (tail : List Byte) :
    decode (0x08 :: b0 :: b1 :: b2 :: b3 :: tail) =
      .ok (.drawBtp (le16 b0 b1) (le16 b2 b3), tail) := rfl

@[simp] theorem decode_halt (tail : List Byte) : decode (0xFF :: tail) = .ok (.halt, tail) := rfl

theorem decode_undef {op : Byte} (h : op ∉ definedOpcodes) (tail : List Byte) :
    decode (op :: tail) = .ok (.undef op, tail) := by
  simp only [mem_definedOpcodes_iff, not_or] at h
  obtain ⟨h0, h1, h2, h4, h8, hFF⟩ := h
  simp only [decode, if_neg h0, if_neg h1, if_neg h2, if_neg h4, if_neg h8, if_neg hFF]

/-! ## The length -/

/-- R91's length column. -/
theorem instrLength_eq (op : Byte) : instrLength op =
    if op = 0x01 then 2 else if op = 0x02 then 3 else if op = 0x04 then 3
    else if op = 0x08 then 5 else 1 := by
  unfold instrLength operandWidths
  split_ifs <;> rfl

theorem instrLength_undef {op : Byte} (h : op ∉ definedOpcodes) : instrLength op = 1 :=
  (Laws.EncodedLength.undef op (wf_undef_iff.2 h)).2.symm

/-- Enough bytes for the opcode's length always decode, and exactly that many are used: an operand's bytes
are all there, and no value of theirs is refused (R91, R99). -/
theorem decode_uses_instrLength (op : Byte) (tail : List Byte)
    (h : instrLength op ≤ (op :: tail).length) :
    ∃ i, decode (op :: tail) = .ok (i, (op :: tail).drop (instrLength op)) ∧ i.opcode = op := by
  by_cases hd : op ∈ definedOpcodes
  · obtain rfl | rfl | rfl | rfl | rfl | rfl := mem_definedOpcodes_iff.1 hd
    · exact ⟨.nop, decode_nop tail, rfl⟩
    · match tail, h with
      | v :: r, _ => exact ⟨.setA v, decode_setA v r, rfl⟩
    · match tail, h with
      | b0 :: b1 :: r, _ => exact ⟨.setX (le16 b0 b1), decode_setX b0 b1 r, rfl⟩
    · match tail, h with
      | b0 :: b1 :: r, _ => exact ⟨.jmp (le16 b0 b1), decode_jmp b0 b1 r, rfl⟩
    · match tail, h with
      | b0 :: b1 :: b2 :: b3 :: r, _ =>
        exact ⟨.drawBtp (le16 b0 b1) (le16 b2 b3), decode_drawBtp b0 b1 b2 b3 r, rfl⟩
    · exact ⟨.halt, decode_halt tail, rfl⟩
  · rw [instrLength_undef hd]
    exact ⟨.undef op, decode_undef hd tail, rfl⟩

/-! ## The mnemonic -/

/-- Each defined opcode has one mnemonic: the constructors' opcodes differ, and a well-formed `undef` has
none of the six (R99, R100). -/
theorem opcode_decides_mnemonic (i : Instr) : (i.opcode = 0x00 ∧ i.wf = true ↔ i = .nop) ∧
    (i.opcode = 0x01 ∧ i.wf = true ↔ ∃ v, i = .setA v) ∧
    (i.opcode = 0x02 ∧ i.wf = true ↔ ∃ v, i = .setX v) ∧
    (i.opcode = 0x04 ∧ i.wf = true ↔ ∃ v, i = .jmp v) ∧
    (i.opcode = 0x08 ∧ i.wf = true ↔ ∃ x y, i = .drawBtp x y) ∧
    (i.opcode = 0xFF ∧ i.wf = true ↔ i = .halt) := by
  cases i with
  | undef op =>
    have no_defined : ∀ c ∈ definedOpcodes, ¬ (op = c ∧ (Instr.undef op).wf = true) :=
      fun c hc ⟨hop, hwf⟩ => wf_undef_iff.1 hwf (hop ▸ hc)
    simpa [definedOpcodes, Instr.opcode] using no_defined
  | _ => simp [Instr.opcode, Instr.wf]

end Sys2Proof

namespace Sys2Proof.Proofs

/-- Settles O31: R91's table of lengths, the decode of any list that is long enough, and the opcode's
mnemonic. -/
theorem opcodeAloneDecidesTheLength : Obligations.OpcodeAloneDecidesTheLength :=
  ⟨instrLength_eq, decode_uses_instrLength, opcode_decides_mnemonic⟩

end Sys2Proof.Proofs
end

section
/-! Which instruction a byte list decodes to: the undefined no-op for an opcode outside the six defined
ones, and for no other (spec/40_execution_cycle.md R124). -/

namespace Sys2Proof

/-- A decode never gives `undef` for a defined opcode: each of the six has a row of its own, which gives its
own instruction or, where operand bytes are missing, an error (R99, R124). -/
theorem decode_wf {op : Byte} {tail rest : List Byte} {i : Instr}
    (h : decode (op :: tail) = .ok (i, rest)) : i.wf = true := by
  by_cases hd : op ∈ definedOpcodes
  · obtain rfl | rfl | rfl | rfl | rfl | rfl := mem_definedOpcodes_iff.1 hd
    · cases h; rfl
    · match tail, h with
      | _ :: _, h => cases h; rfl
    · match tail, h with
      | _ :: _ :: _, h => cases h; rfl
    · match tail, h with
      | _ :: _ :: _, h => cases h; rfl
    · match tail, h with
      | _ :: _ :: _ :: _ :: _, h => cases h; rfl
    · cases h; rfl
  · cases (decode_undef hd tail).symm.trans h
    exact wf_undef_iff.2 hd

theorem decode_eq_undef_iff {op : Byte} {tail rest : List Byte} {i : Instr}
    (h : decode (op :: tail) = .ok (i, rest)) : i = .undef op ↔ op ∉ definedOpcodes := by
  constructor
  · rintro rfl
    exact wf_undef_iff.1 (decode_wf h)
  · intro hd
    cases (decode_undef hd tail).symm.trans h
    rfl

end Sys2Proof

namespace Sys2Proof.Proofs

/-- Settles O32: the decoder's equation for each opcode, and the converse for the undefined no-op. -/
theorem onlyTheSixOpcodesAreDefined : Obligations.OnlyTheSixOpcodesAreDefined :=
  ⟨fun _ tail hd => decode_undef hd tail, decode_nop, decode_setA, decode_setX, decode_jmp,
    decode_drawBtp, decode_halt, fun _ _ _ _ => decode_eq_undef_iff,
    fun _ => mem_definedOpcodes_iff⟩

end Sys2Proof.Proofs
end

section
/-! What the instructions of spec/41_data_and_control.md share: the bytes at and past `CodeSize`, the fetch
read byte by byte, the advance of `PC`, and the steps that change nothing. -/

namespace Sys2Proof.Machine

/-! ## The bytes at and past `CodeSize` -/

/-- `CODE` holds 0 from `CodeSize` on (R45, R103). -/
theorem codeMem_read_past_codeSize {s : State} (hi : StateInv s) {a : Nat}
    (ha : s.codeSize.toNat ≤ a) : s.codeMem.read a = 0 := by
  obtain ⟨-, -, -, hbelow, -⟩ := hi
  exact Memory.read_of_below _ _ _ hbelow ha

/-- A half that reaches `CodeSize` has high byte 0, and low byte 0 too where it starts there. -/
theorem codeMem_read16_across_codeSize {s : State} (hi : StateInv s) {a : Nat}
    (ha : s.codeSize.toNat ≤ a + 1) :
    (s.codeMem.read16 a).toNat = if a < s.codeSize.toNat then (s.codeMem.read a).toNat else 0 := by
  rw [Memory.read16_toNat, codeMem_read_past_codeSize hi ha]
  split
  · simp
  · next hlow => simp [codeMem_read_past_codeSize hi (Nat.le_of_not_lt hlow)]

/-! ## The fetch, by the bytes at `PC` -/

theorem codeBytes_succ {s : State} {a : Nat} (n : Nat) (h : a < Config.codeMemSize) :
    codeBytes s a (n + 1) = s.codeMem.read a :: codeBytes s (a + 1) n :=
  if_pos h

theorem fetchInstr_of_decode {s : State} {i : Instr} {rest : List Byte}
    (h : decode (codeBytes s s.pc.toNat Config.maxInstrBytes) = .ok (i, rest)) :
    fetchInstr s = .ok i := by
  simp only [fetchInstr, h]

theorem fetchInstr_nop {s : State} (hp : s.pc.toNat < Config.codeMemSize)
    (hop : s.codeMem.read s.pc.toNat = 0x00) : fetchInstr s = .ok .nop := by
  apply fetchInstr_of_decode
  rw [codeBytes_succ _ hp, hop, decode_nop]

theorem fetchInstr_setA {s : State} (hp : s.pc.toNat + 1 < Config.codeMemSize)
    (hop : s.codeMem.read s.pc.toNat = 0x01) :
    fetchInstr s = .ok (.setA (s.codeMem.read (s.pc.toNat + 1))) := by
  apply fetchInstr_of_decode
  rw [codeBytes_succ _ (Nat.lt_of_succ_lt hp), codeBytes_succ _ hp, hop, decode_setA]

theorem fetchInstr_setX {s : State} (hp : s.pc.toNat + 2 < Config.codeMemSize)
    (hop : s.codeMem.read s.pc.toNat = 0x02) :
    fetchInstr s = .ok (.setX (s.codeMem.read16 (s.pc.toNat + 1))) := by
  apply fetchInstr_of_decode
  have hp1 : s.pc.toNat + 1 < Config.codeMemSize := Nat.lt_of_succ_lt hp
  rw [codeBytes_succ _ (Nat.lt_of_succ_lt hp1), codeBytes_succ _ hp1, codeBytes_succ _ hp, hop,
    decode_setX, Memory.read16_eq_le16]

/-! ## The advance of `PC` -/

/-- The fall-through offset is exact while the sum fits `PC` (R125). -/
theorem State.advance_pc_toNat {s : State} {n : Nat} (h : s.pc.toNat + n < 2 ^ 16) :
    (s.advance n).pc.toNat = s.pc.toNat + n := by
  rw [State.advance_pc, BitVec.toNat_ofNat, Nat.mod_eq_of_lt h]

/-- Falling through to `CodeSize` exactly is the write that `HALT` makes. -/
theorem State.advance_eq_setPc_codeSize {s : State} {n : Nat} (h : s.pc.toNat + n = s.codeSize.toNat) :
    s.advance n = s.setPc s.codeSize := by
  rw [State.advance, h, BitVec.ofNat_toNat, BitVec.setWidth_eq]

/-- An advance to or past `CodeSize` halts a core that was running (R37). -/
theorem State.advance_halted {s : State} {n : Nat} (hr : s.status = .running)
    (hfit : s.pc.toNat + n < 2 ^ 16) (hend : s.codeSize.toNat ≤ s.pc.toNat + n) :
    (s.advance n).status = .halted := by
  obtain ⟨hk, -⟩ := (status_running_iff s).1 hr
  exact (status_halted_iff _).2 ⟨hk, (State.advance_pc_toNat hfit).symm ▸ hend⟩

/-! ## Steps that change nothing -/

theorem State.setPc_codeSize_halted {s : State} (h : s.fault.kind = .none) :
    (s.setPc s.codeSize).status = .halted :=
  (status_halted_iff _).2 ⟨(FaultKind.ne_memFault_iff _).2 h, Nat.le_refl _⟩

/-- No byte at or past `CodeSize` is run, by a halted core or by a faulted one (R103, R127, R128). -/
theorem step_of_codeSize_le {s : State} (h : s.codeSize.toNat ≤ s.pc.toNat) : step s = .next s := by
  by_cases hk : s.fault.kind = .memFault
  · exact step_of_faulted ((status_faulted_iff s).2 hk)
  · exact step_of_halted ((status_halted_iff s).2 ⟨hk, h⟩)

end Sys2Proof.Machine

namespace Sys2Proof

open Sys2Proof.Machine

/-- A state that one step leaves as it is stays as it is for any number of steps. -/
theorem steps_of_step_self {s : State} (h : step s = .next s) (n : Nat) : steps n s = .next s := by
  induction n with
  | zero => rfl
  | succ n ih => rw [steps_succ_of_step h, ih]

end Sys2Proof
end

section
/-! `NOP` and `HALT` (spec/41_data_and_control.md R140, R144). -/

namespace Sys2Proof.Machine

/-- A zero byte at `PC` runs as `NOP` (R140). -/
theorem step_nop {s : State} (hi : StateInv s) (hr : s.status = .running)
    (hop : s.codeMem.read s.pc.toNat = 0x00) : step s = .next (s.advance 1) := by
  obtain ⟨hcs, -⟩ := hi
  obtain ⟨-, hpc⟩ := (status_running_iff s).1 hr
  rw [step_of_fetch hr (fetchInstr_nop (Nat.lt_of_lt_of_le hpc hcs) hop), exec_nop]

/-- At `CodeSize - 1`, `NOP` writes `CodeSize` to `PC`. -/
theorem exec_nop_at_end {s : State} (h : s.pc.toNat + 1 = s.codeSize.toNat) :
    exec .nop s = .next (s.setPc s.codeSize) := by
  rw [exec_nop, State.advance_eq_setPc_codeSize h]

end Sys2Proof.Machine

namespace Sys2Proof.Proofs

open Sys2Proof.Machine

/-- Settles O1: the meaning's own equation, the fetch of a zero byte, and the absorption at `CodeSize`. -/
theorem nopOnlyAdvancesPc : Obligations.NopOnlyAdvancesPc :=
  ⟨decode_nop, fun s _ => exec_nop s,
    fun _ hk hend => ⟨exec_nop_at_end hend, State.setPc_codeSize_halted hk⟩,
    fun _ => step_nop, fun _ hi _ => codeMem_read_past_codeSize hi, fun _ => step_of_codeSize_le⟩

/-- Settles O6: `HALT` writes `CodeSize` to `PC`, where every step leaves the state as it is. -/
theorem haltStopsAtCodeSize : Obligations.HaltStopsAtCodeSize := by
  refine ⟨decode_halt, exec_halt, fun s n hk => ⟨State.setPc_codeSize_halted hk, ?_⟩, fun s hend => ?_⟩
  · exact steps_of_step_self (step_of_halted (State.setPc_codeSize_halted hk)) n
  · rw [exec_halt, exec_nop_at_end hend]

end Sys2Proof.Proofs
end

section
/-! `SET_A` and `SET_X` (spec/41_data_and_control.md R141, R142). -/

namespace Sys2Proof.Machine

theorem exec_setA_in_code {s : State} (v : Byte) (h : s.pc.toNat + 1 < Config.codeMemSize) :
    exec (.setA v) s = .next ((s.setA v).advance 2) := by
  rw [exec_setA, if_pos (Nat.succ_le_of_lt h)]

theorem exec_setA_past_code {s : State} (v : Byte) (h : Config.codeMemSize ≤ s.pc.toNat + 1) :
    exec (.setA v) s = .next (takeMemFault s 0x01 (s.pc.toNat + 1)) := by
  rw [exec_setA, if_neg (by omega)]

theorem exec_setX_in_code {s : State} (v : Half) (h : s.pc.toNat + 2 < Config.codeMemSize) :
    exec (.setX v) s = .next ((s.setX v).advance 3) := by
  rw [exec_setX, if_pos (Nat.succ_le_of_lt h)]

theorem exec_setX_past_code {s : State} (v : Half) (h : Config.codeMemSize ≤ s.pc.toNat + 2) :
    exec (.setX v) s = .next (takeMemFault s 0x02 (s.pc.toNat + 1)) := by
  rw [exec_setX, if_neg (by omega)]

/-- A `SET_A` with its operand in `CODE` loads the byte after `PC`, whatever `CodeSize` is (R103). -/
theorem step_setA {s : State} (hr : s.status = .running)
    (hop : s.codeMem.read s.pc.toNat = 0x01) (hp : s.pc.toNat + 1 < Config.codeMemSize) :
    step s = .next ((s.setA (s.codeMem.read (s.pc.toNat + 1))).advance 2) := by
  rw [step_of_fetch hr (fetchInstr_setA hp hop), exec_setA_in_code _ hp]

/-- A `SET_X` with its operand in `CODE` loads the half after `PC`, whatever `CodeSize` is (R103). -/
theorem step_setX {s : State} (hr : s.status = .running)
    (hop : s.codeMem.read s.pc.toNat = 0x02) (hp : s.pc.toNat + 2 < Config.codeMemSize) :
    step s = .next ((s.setX (s.codeMem.read16 (s.pc.toNat + 1))).advance 3) := by
  rw [step_of_fetch hr (fetchInstr_setX hp hop), exec_setX_in_code _ hp]

end Sys2Proof.Machine

namespace Sys2Proof.Proofs

open Sys2Proof.Machine

/-- Settles O2: the meaning on both sides of the operand's bound, and the operand byte at `CodeSize`,
which the invariant makes 0. -/
theorem setALoadsTheAccumulator : Obligations.SetALoadsTheAccumulator := by
  refine ⟨decode_setA, fun v _ hp => exec_setA_in_code v hp,
    fun v _ hp => ⟨_, exec_setA_past_code v hp, rfl, rfl, rfl⟩, ?_⟩
  intro s hi hr hop hend hlt
  have hzero : s.codeMem.read (s.pc.toNat + 1) = 0 := codeMem_read_past_codeSize hi hend.ge
  have hstep := step_setA hr hop (hend ▸ hlt)
  rw [hzero] at hstep
  have hfit : s.pc.toNat + 2 < 2 ^ 16 := by
    simp only [Config.codeMemSize] at hlt
    omega
  have hpast : s.codeSize.toNat + 1 = s.pc.toNat + 2 := congrArg (· + 1) hend.symm
  exact ⟨_, hstep, rfl, (State.advance_pc_toNat hfit).trans hpast.symm,
    State.advance_halted hr hfit (hpast ▸ Nat.le_succ _)⟩

/-- Settles O3: the meaning on both sides of the operand's bound, and the operand bytes at or past
`CodeSize`, which the invariant makes 0. -/
theorem setXLoadsTheIndexRegister : Obligations.SetXLoadsTheIndexRegister := by
  refine ⟨fun b0 b1 tail => ⟨_, decode_setX b0 b1 tail, le16_toNat b0 b1⟩,
    fun v _ hp => exec_setX_in_code v hp,
    fun v _ hp => ⟨_, exec_setX_past_code v hp, rfl, rfl, rfl⟩, ?_⟩
  intro s hi hr hop hp hend
  have hfit : s.pc.toNat + 3 < 2 ^ 16 := by
    simp only [Config.codeMemSize] at hp
    omega
  exact ⟨_, step_setX hr hop hp, rfl, codeMem_read16_across_codeSize hi hend,
    State.advance_pc_toNat hfit, State.advance_halted hr hfit (Nat.le_succ_of_le hend)⟩

end Sys2Proof.Proofs
end

section
/-! `EntryPoint` is retained and read by nothing that a step does (spec/70_reset_and_hazards.md R270): the
status, the fetch, each meaning and so the step are the same whatever value it holds. -/

namespace Sys2Proof.Machine

theorem status_with_entryPoint (s : State) (e : Long) :
    State.status { s with entryPoint := e } = s.status := rfl

theorem fetchInstr_with_entryPoint (s : State) (e : Long) :
    fetchInstr { s with entryPoint := e } = fetchInstr s := by
  have same_bytes : codeBytes { s with entryPoint := e } s.pc.toNat Config.maxInstrBytes =
      codeBytes s s.pc.toNat Config.maxInstrBytes := by
    rw [codeBytes_eq, codeBytes_eq]
  simp only [fetchInstr, same_bytes]

theorem jumpTo_with_entryPoint (s : State) (e : Long) (target : Half) :
    jumpTo { s with entryPoint := e } target = { jumpTo s target with entryPoint := e } := by
  unfold jumpTo
  split <;> rfl

/-- No meaning reads `EntryPoint`, in its bounds check or in its effect. -/
theorem exec_with_entryPoint {i : Instr} {s t : State} (e : Long) (h : exec i s = .next t) :
    exec i { s with entryPoint := e } = .next { t with entryPoint := e } := by
  cases i with
  | nop | halt | undef _ => cases h; rfl
  | setA v =>
    rw [exec_setA] at h ⊢
    cases h
    split <;> rfl
  | setX v =>
    rw [exec_setX] at h ⊢
    cases h
    split <;> rfl
  | jmp target =>
    rw [exec_jmp, jumpTo_with_entryPoint]
    rw [exec_jmp] at h
    cases h
    split <;> rfl
  | drawBtp x y =>
    rw [exec_drawBtp] at h ⊢
    cases h
    split_ifs <;> rfl

/-- A halted core and a faulted core stay as they are (R127, R128). -/
theorem step_of_not_running {s : State} (h : s.status ≠ .running) : step s = .next s := by
  cases hs : s.status with
  | running => exact absurd hs h
  | halted => exact step_of_halted hs
  | faulted => exact step_of_faulted hs

theorem step_with_entryPoint {s t : State} (e : Long) (h : step s = .next t) :
    step { s with entryPoint := e } = .next { t with entryPoint := e } := by
  have hstatus := status_with_entryPoint s e
  have hfetch := fetchInstr_with_entryPoint s e
  obtain ⟨hr, rfl⟩ | ⟨hr, i, hf, hx⟩ | ⟨hr, op, start, hf, rfl⟩ := step_next_cases h
  · exact step_of_not_running (hstatus.trans_ne hr)
  · exact (step_of_fetch (hstatus.trans hr) (hfetch.trans hf)).trans (exec_with_entryPoint e hx)
  · exact step_of_truncated (hstatus.trans hr) (hfetch.trans hf)

end Sys2Proof.Machine

namespace Sys2Proof

open Sys2Proof.Machine

theorem steps_with_entryPoint {n : Nat} {s t : State} (e : Long) (h : steps n s = .next t) :
    steps n { s with entryPoint := e } = .next { t with entryPoint := e } := by
  induction n generalizing s with
  | zero => cases h; rfl
  | succ n ih =>
    obtain ⟨u, hstep, hrest⟩ := steps_succ_next h
    rw [steps_succ_of_step (step_with_entryPoint e hstep), ih hrest]

end Sys2Proof
end

section
/-! The boot of a cartridge that passes the checks of R261, and of one that fails them. -/

namespace Sys2Proof.Machine

/-- Only a stream that passes the checks boots with `Ok`, and then the load has committed. -/
theorem boot_some_ok {S : List Byte} {t : State} (h : boot (some S) = (t, .ok)) :
    loadResult S = .ok ∧ t = commitLoad S State.reset := by
  rw [boot_some] at h
  by_cases hok : loadResult S = .ok
  · rw [loadImage_ok hok] at h
    cases h
    exact ⟨hok, rfl⟩
  · rw [loadImage_failed hok] at h
    exact absurd (congrArg Prod.snd h) hok

theorem boot_some_failed {S : List Byte} (h : loadResult S ≠ .ok) :
    boot (some S) = (State.reset, loadResult S) := by
  rw [boot_some, loadImage_failed h]

/-- The core is halted at reset: `PC` and `CodeSize` are both 0 (R37, R260). -/
theorem State.reset_halted : State.reset.status = .halted :=
  (status_halted_iff _).2 ⟨by simp, by simp⟩

end Sys2Proof.Machine

namespace Sys2Proof.Proofs

open Sys2Proof.Machine

/-- Settles O22: a committed load writes 0 to `PC`, and by induction on the number of steps no run reads or
writes `EntryPoint`. -/
theorem entryPointNeverAffectsExecution : Obligations.EntryPointNeverAffectsExecution := by
  refine ⟨fun S t hboot => ?_, fun _ _ _ e hrun => steps_with_entryPoint e hrun⟩
  obtain ⟨-, rfl⟩ := boot_some_ok hboot
  exact commitLoad_pc S State.reset

/-- Settles O46: a failed load returns the state it was given, which at boot is the reset state. -/
theorem failedLoadChangesNothing : Obligations.FailedLoadChangesNothing := by
  intro S hfail
  refine ⟨fun s => ?_, ?_⟩
  · rw [loadImage_failed hfail]
    exact ⟨rfl, rfl⟩
  · rw [boot_some_failed hfail]
    exact ⟨rfl, State.reset_halted, Memory.read_nil, Memory.read_nil, State.reset_codeSize⟩

end Sys2Proof.Proofs
end

section
/-! Decode and encode are inverse to each other (spec/30_encoding.md R90 to R97). -/

namespace Sys2Proof

open Sys2Proof.Machine (loByte hiByte)

/-- An operand split into its bytes is read back whole (`le16_loByte_hiByte`). -/
theorem decode_encode {i : Instr} (hw : i.wf = true) (rest : List Byte) :
    decode (encode i ++ rest) = .ok (i, rest) := by
  cases i with
  | nop => exact decode_nop rest
  | setA v => exact decode_setA v rest
  | setX v => simpa [encode] using decode_setX (loByte v) (hiByte v) rest
  | jmp t => simpa [encode] using decode_jmp (loByte t) (hiByte t) rest
  | drawBtp x y =>
    simpa [encode] using decode_drawBtp (loByte x) (hiByte x) (loByte y) (hiByte y) rest
  | halt => exact decode_halt rest
  | undef op => exact decode_undef (wf_undef_iff.1 hw) rest

theorem decode_nil_ne_ok {r : Instr × List Byte} : decode [] ≠ .ok r := nofun

/-- A decode uses the bytes of the instruction's encoding, opcode by opcode. -/
theorem cons_eq_encode_of_decode {op : Byte} {tail rest : List Byte} {i : Instr}
    (h : decode (op :: tail) = .ok (i, rest)) : op :: tail = encode i ++ rest := by
  by_cases hd : op ∈ definedOpcodes
  · obtain rfl | rfl | rfl | rfl | rfl | rfl := mem_definedOpcodes_iff.1 hd
    · cases h; rfl
    · match tail, h with
      | _ :: _, h => cases h; rfl
    · match tail, h with
      | _ :: _ :: _, h => cases h; simp [encode]
    · match tail, h with
      | _ :: _ :: _, h => cases h; simp [encode]
    · match tail, h with
      | _ :: _ :: _ :: _ :: _, h => cases h; simp [encode]
    · cases h; rfl
  · cases (decode_undef hd tail).symm.trans h
    rfl

theorem wf_and_eq_encode_of_decode {bytes rest : List Byte} {i : Instr}
    (h : decode bytes = .ok (i, rest)) : i.wf = true ∧ bytes = encode i ++ rest := by
  cases bytes with
  | nil => exact absurd h decode_nil_ne_ok
  | cons op tail => exact ⟨decode_wf h, cons_eq_encode_of_decode h⟩

/-- The six per-instruction laws as one: the length of an encoding is its opcode's (R91). -/
theorem encode_length {i : Instr} (hw : i.wf = true) : (encode i).length = instrLength i.opcode := by
  cases i with
  | nop | setA _ | setX _ | jmp _ | drawBtp _ _ | halt => rfl
  | undef op => exact (Laws.EncodedLength.undef op hw).2

theorem encode_length_bounds (i : Instr) :
    1 ≤ (encode i).length ∧ (encode i).length ≤ Config.maxInstrBytes := by
  cases i <;> exact ⟨by simp [encode], by simp [encode]⟩

theorem encode_eq_opcode_cons (i : Instr) : ∃ operands, encode i = i.opcode :: operands := by
  cases i <;> exact ⟨_, rfl⟩

end Sys2Proof

namespace Sys2Proof.Proofs

/-- Settles O29: the decoder's equation for the instruction's opcode, with the operands joined again. -/
theorem decodeOfEncodeIsTheInstruction : Obligations.DecodeOfEncodeIsTheInstruction :=
  fun _ rest hw => decode_encode hw rest

/-- Settles O30: an empty list has no decode, and the first byte fixes what any other list decodes to. -/
theorem encodeOfDecodeIsTheBytes : Obligations.EncodeOfDecodeIsTheBytes :=
  fun _ _ _ => wf_and_eq_encode_of_decode

/-- Settles O33: the nine words, byte by byte. -/
theorem exampleWordsDecode : Obligations.ExampleWordsDecode := by
  unfold Obligations.ExampleWordsDecode
  decide

end Sys2Proof.Proofs
end

section
/-! The fetch in terms of the bytes of `CODE`: an instruction where its whole encoding stands in `CODE` at
`PC`, and a cut operand exactly in the rows of R224's table (spec/40_execution_cycle.md R121 to R125). -/

namespace Sys2Proof.Machine

/-! ## R224's table as one condition -/

/-- A row of the table is an opcode whose last operand byte passes the end of `CODE`; the recorded offset is
that of the first operand that is not whole, which is `Y` only where `X` still fits. -/
theorem mem_memFaultTable_iff {op : Byte} {p addr : Nat} : (op, p, addr) ∈ memFaultTable ↔
    p < Config.codeMemSize ∧ Config.codeMemSize < p + instrLength op ∧
      addr = if op = 0x08 ∧ p + 3 ≤ Config.codeMemSize then p + 3 else p + 1 := by
  have rows_meet : ∀ r ∈ memFaultTable, r.2.1 < Config.codeMemSize ∧
      Config.codeMemSize < r.2.1 + instrLength r.1 ∧
      r.2.2 = if r.1 = 0x08 ∧ r.2.1 + 3 ≤ Config.codeMemSize then r.2.1 + 3 else r.2.1 + 1 := by
    decide
  refine ⟨fun h => rows_meet _ h, ?_⟩
  rintro ⟨hp, hlen, rfl⟩
  simp only [Config.codeMemSize] at hp hlen
  rw [instrLength_eq] at hlen
  split_ifs at hlen with h1 h2 h4 h8
  · obtain rfl : p = 32767 := by omega
    subst h1; decide
  · obtain rfl | rfl : p = 32766 ∨ p = 32767 := by omega
    all_goals subst h2; decide
  · obtain rfl | rfl : p = 32766 ∨ p = 32767 := by omega
    all_goals subst h4; decide
  · obtain rfl | rfl | rfl | rfl : p = 32764 ∨ p = 32765 ∨ p = 32766 ∨ p = 32767 := by omega
    all_goals subst h8; decide
  · omega

/-- The opcodes of the table have operands, and the recorded offset is one of the last two (R36). -/
theorem memFaultTable_range {op : Byte} {p addr : Nat} (h : (op, p, addr) ∈ memFaultTable) :
    op ∈ ([0x01, 0x02, 0x04, 0x08] : List Byte) ∧
      (addr = Config.codeMemSize - 1 ∨ addr = Config.codeMemSize) := by
  have rows_meet : ∀ r ∈ memFaultTable, r.1 ∈ ([0x01, 0x02, 0x04, 0x08] : List Byte) ∧
      (r.2.2 = Config.codeMemSize - 1 ∨ r.2.2 = Config.codeMemSize) := by decide
  exact rows_meet _ h

/-! ## Reading `CODE` -/

theorem readBytes_add (m : Memory) (a n k : Nat) :
    readBytes m a (n + k) = readBytes m a n ++ readBytes m (a + n) k := by
  induction n generalizing a with
  | zero => simp [readBytes]
  | succ n ih =>
    rw [Nat.succ_add, readBytes, readBytes, ih, List.cons_append, Nat.add_assoc a 1 n,
      Nat.add_comm 1 n]

theorem readBytes_take {m : Memory} {a n k : Nat} (h : k ≤ n) :
    (readBytes m a n).take k = readBytes m a k := by
  obtain ⟨d, rfl⟩ := Nat.exists_eq_add_of_le h
  rw [readBytes_add]
  exact List.take_left' (readBytes_length m a k)

theorem codeBytes_length (s : State) (a n : Nat) :
    (codeBytes s a n).length = min n (Config.codeMemSize - a) := by
  rw [codeBytes_eq, readBytes_length]

theorem decode_of_fetchInstr {s : State} {i : Instr} (h : fetchInstr s = .ok i) :
    ∃ rest, decode (codeBytes s s.pc.toNat Config.maxInstrBytes) = .ok (i, rest) := by
  unfold fetchInstr at h
  split at h
  · next rest hd =>
    cases h
    exact ⟨rest, hd⟩
  · cases h

theorem decode_of_fetchInstr_error {s : State} {e : DecodeError} (h : fetchInstr s = .error e) :
    decode (codeBytes s s.pc.toNat Config.maxInstrBytes) = .error e := by
  unfold fetchInstr at h
  split at h
  · cases h
  · next hd =>
    cases h
    exact hd

/-- What a fetch finds: the instruction is well-formed, and its whole encoding stands in `CODE` at `PC`;
and whatever bytes follow, this is all a fetch asks (R122 to R125). -/
theorem fetchInstr_eq_ok_iff (s : State) (i : Instr) : fetchInstr s = .ok i ↔
    i.wf = true ∧ s.pc.toNat + (encode i).length ≤ Config.codeMemSize ∧
      readBytes s.codeMem s.pc.toNat (encode i).length = encode i := by
  obtain ⟨hpos, hmax⟩ := encode_length_bounds i
  constructor
  · intro h
    obtain ⟨rest, hd⟩ := decode_of_fetchInstr h
    obtain ⟨hw, hb⟩ := wf_and_eq_encode_of_decode hd
    have hlen := congrArg List.length hb
    rw [codeBytes_length, List.length_append] at hlen
    have htake := congrArg (List.take (encode i).length) hb
    rw [codeBytes_eq, readBytes_take (by omega), List.take_left] at htake
    exact ⟨hw, by omega, htake⟩
  · rintro ⟨hw, hfit, hb⟩
    obtain ⟨d, hd⟩ := Nat.exists_eq_add_of_le
      (show (encode i).length ≤ min Config.maxInstrBytes (Config.codeMemSize - s.pc.toNat) by omega)
    apply fetchInstr_of_decode
    rw [codeBytes_eq, hd, readBytes_add, hb]
    exact decode_encode hw _

theorem fetchInstr_in_code {s : State} {i : Instr} (h : fetchInstr s = .ok i) :
    s.pc.toNat + instrLength i.opcode ≤ Config.codeMemSize := by
  obtain ⟨hw, hfit, -⟩ := (fetchInstr_eq_ok_iff s i).1 h
  rwa [encode_length hw] at hfit

theorem fetchInstr_opcode {s : State} {i : Instr} (h : fetchInstr s = .ok i) :
    s.codeMem.read s.pc.toNat = i.opcode := by
  obtain ⟨-, -, hb⟩ := (fetchInstr_eq_ok_iff s i).1 h
  obtain ⟨operands, ho⟩ := encode_eq_opcode_cons i
  rw [ho] at hb
  exact (List.cons.inj hb).1

/-- The target of a fetched `JMP` is the half after its opcode. -/
theorem fetchInstr_jmp_target {s : State} {t : Half} (h : fetchInstr s = .ok (.jmp t)) :
    t = s.codeMem.read16 (s.pc.toNat + 1) := by
  obtain ⟨-, -, hb⟩ := (fetchInstr_eq_ok_iff s _).1 h
  obtain ⟨-, hb⟩ := List.cons.inj hb
  obtain ⟨hlo, hb⟩ := List.cons.inj hb
  obtain ⟨hhi, -⟩ := List.cons.inj hb
  rw [Memory.read16_eq_le16, hlo, hhi, le16_loByte_hiByte]

/-- The lengths at which `decode_truncated` stops are those of R224's table. -/
theorem fetchInstr_truncated_mem_table {s : State} {op : Byte} {start : Nat}
    (h : fetchInstr s = .error (.truncated op start)) :
    (op, s.pc.toNat, s.pc.toNat + start) ∈ memFaultTable := by
  obtain ⟨tail, hb, hcut⟩ := decode_truncated (decode_of_fetchInstr_error h)
  have hlen := congrArg List.length hb
  rw [codeBytes_length, List.length_cons] at hlen
  simp only [Config.maxInstrBytes, Config.lengthF4, Config.codeMemSize] at hlen
  rw [mem_memFaultTable_iff, instrLength_eq]
  simp only [Config.codeMemSize]
  rcases hcut with ⟨rfl, rfl, hl⟩ | ⟨rfl, rfl, hl⟩ | ⟨rfl, rfl, hl⟩ | ⟨rfl, rfl, hl⟩ |
    ⟨rfl, rfl, hl, hl'⟩ <;> simp <;> omega

/-- With a byte at `PC` there is a whole instruction, or an operand that R224's table says is cut. -/
theorem fetchInstr_ok_or_table (s : State) (hp : s.pc.toNat < Config.codeMemSize) :
    (∃ i, fetchInstr s = .ok i) ∨
    (∃ start, fetchInstr s = .error (.truncated (s.codeMem.read s.pc.toNat) start) ∧
      (s.codeMem.read s.pc.toNat, s.pc.toNat, s.pc.toNat + start) ∈ memFaultTable) := by
  obtain ⟨i, hf, -⟩ | ⟨op, start, hf, rfl, -⟩ := fetchInstr_cases s hp
  · exact .inl ⟨i, hf⟩
  · exact .inr ⟨start, hf, fetchInstr_truncated_mem_table hf⟩

theorem fetchInstr_truncated_opcode {s : State} {op : Byte} {start : Nat}
    (hp : s.pc.toNat < Config.codeMemSize) (h : fetchInstr s = .error (.truncated op start)) :
    op = s.codeMem.read s.pc.toNat := by
  obtain ⟨i, hf⟩ | ⟨start', hf, -⟩ := fetchInstr_ok_or_table s hp
  · cases hf.symm.trans h
  · cases hf.symm.trans h
    rfl

/-- An opcode whose operands all lie in `CODE` is fetched. -/
theorem fetchInstr_of_fits {s : State} (hp : s.pc.toNat < Config.codeMemSize)
    (hfit : s.pc.toNat + instrLength (s.codeMem.read s.pc.toNat) ≤ Config.codeMemSize) :
    ∃ i, fetchInstr s = .ok i := by
  obtain hok | ⟨start, -, hrow⟩ := fetchInstr_ok_or_table s hp
  · exact hok
  · obtain ⟨-, hcut, -⟩ := mem_memFaultTable_iff.1 hrow
    exact absurd hfit (Nat.not_le_of_lt hcut)

end Sys2Proof.Machine
end

section
/-! What a committed instruction does (spec/40_execution_cycle.md R126): its effect once its operands are
read, with the frame of that effect; and what one step can do in terms of it. -/

namespace Sys2Proof.Machine

/-- The effect of an instruction whose operands are all in `CODE` (R140 to R145, R180). `exec_in_code` ties
it to the meanings. -/
def committed (i : Instr) (s : State) : State :=
  match i with
  | .nop => s.advance 1
  | .setA v => (s.setA v).advance 2
  | .setX v => (s.setX v).advance 3
  | .jmp t => jumpTo s t
  | .drawBtp x y => (s.advance 5).emit (decodeBitmap s.gfxMem (sext16 x) (sext16 y))
  | .halt => s.setPc s.codeSize
  | .undef _ => s.advance 1

theorem exec_in_code {i : Instr} {s : State}
    (h : s.pc.toNat + (encode i).length ≤ Config.codeMemSize) : exec i s = .next (committed i s) := by
  cases i with
  | nop => exact exec_nop s
  | setA v => exact exec_setA_in_code v h
  | setX v => exact exec_setX_in_code v h
  | jmp t => exact (exec_jmp t s).trans (congrArg _ (if_pos h))
  | drawBtp x y => exact (exec_drawBtp x y s).trans (congrArg _ (if_pos h))
  | halt => exact exec_halt s
  | undef op => exact exec_undef op s

/-! ## The jump, below `CodeSize` and past it -/

theorem jumpTo_of_lt {s : State} {t : Half} (h : t.toNat < s.codeSize.toNat) :
    jumpTo s t = s.setPc t := if_pos h

theorem jumpTo_of_le {s : State} {t : Half} (h : s.codeSize.toNat ≤ t.toNat) :
    jumpTo s t = (s.setPc s.codeSize).emit [.diag .outOfBoundsJump t s.pc] :=
  if_neg (Nat.not_lt_of_le h)

theorem jumpTo_pc_toNat (s : State) (t : Half) :
    (jumpTo s t).pc.toNat = min s.codeSize.toNat t.toNat := by
  obtain h | h := Nat.lt_or_ge t.toNat s.codeSize.toNat
  · rw [jumpTo_of_lt h, Nat.min_eq_right (Nat.le_of_lt h)]; rfl
  · rw [jumpTo_of_le h, Nat.min_eq_left h]; rfl

/-! ## The frame of an effect -/

/-- An effect writes `PC`, `A`, `X` and the trace, and nothing else; it writes `A` only as `SET_A` and `X`
only as `SET_X`, and it appends the events of a `DRAW_BTP` or of an out-of-bounds `JMP`. -/
theorem committed_eq (i : Instr) (s : State) : ∃ pc a x evs,
    committed i s = { s with pc := pc, a := a, x := x, trace := s.trace ++ evs } ∧
    (a = s.a ∨ i = .setA a) ∧ (x = s.x ∨ i = .setX x) ∧
    (evs = [] ∨ (∃ p q, i = .drawBtp p q ∧ evs = decodeBitmap s.gfxMem (sext16 p) (sext16 q)) ∨
      (∃ t, i = .jmp t ∧ s.codeSize.toNat ≤ t.toNat ∧ evs = [.diag .outOfBoundsJump t s.pc])) := by
  have silent : s.trace = s.trace ++ [] := (List.append_nil _).symm
  cases i with
  | nop | halt | undef _ =>
    exact ⟨_, s.a, s.x, [], by rw [← silent]; rfl, .inl rfl, .inl rfl, .inl rfl⟩
  | setA v => exact ⟨_, v, s.x, [], by rw [← silent]; rfl, .inr rfl, .inl rfl, .inl rfl⟩
  | setX v => exact ⟨_, s.a, v, [], by rw [← silent]; rfl, .inl rfl, .inr rfl, .inl rfl⟩
  | jmp t =>
    obtain h | h := Nat.lt_or_ge t.toNat s.codeSize.toNat
    · exact ⟨t, s.a, s.x, [], by rw [← silent]; exact jumpTo_of_lt h, .inl rfl, .inl rfl, .inl rfl⟩
    · exact ⟨_, s.a, s.x, _, jumpTo_of_le h, .inl rfl, .inl rfl, .inr (.inr ⟨t, rfl, h, rfl⟩)⟩
  | drawBtp x y => exact ⟨_, s.a, s.x, _, rfl, .inl rfl, .inl rfl, .inr (.inl ⟨x, y, rfl, rfl⟩)⟩

section
variable (i : Instr) (s : State)

@[simp] theorem committed_codeSize : (committed i s).codeSize = s.codeSize := by
  obtain ⟨_, _, _, _, h, -⟩ := committed_eq i s
  rw [h]

@[simp] theorem committed_entryPoint : (committed i s).entryPoint = s.entryPoint := by
  obtain ⟨_, _, _, _, h, -⟩ := committed_eq i s
  rw [h]

@[simp] theorem committed_fault : (committed i s).fault = s.fault := by
  obtain ⟨_, _, _, _, h, -⟩ := committed_eq i s
  rw [h]

@[simp] theorem committed_codeMem : (committed i s).codeMem = s.codeMem := by
  obtain ⟨_, _, _, _, h, -⟩ := committed_eq i s
  rw [h]

@[simp] theorem committed_gfxMem : (committed i s).gfxMem = s.gfxMem := by
  obtain ⟨_, _, _, _, h, -⟩ := committed_eq i s
  rw [h]

end

/-- The three kinds of `PC` after an instruction in `CODE` (R33): `CodeSize`, the clamped target, or the
offset after the instruction. -/
theorem committed_pc_cases {i : Instr} {s : State} (hw : i.wf = true)
    (hfit : s.pc.toNat + instrLength i.opcode ≤ Config.codeMemSize) :
    (i = .halt ∧ (committed i s).pc = s.codeSize) ∨
    (∃ t, i = .jmp t ∧ (committed i s).pc.toNat = min s.codeSize.toNat t.toNat) ∨
    (i.opcode ∉ ([0x04, 0xFF] : List Byte) ∧
      (committed i s).pc.toNat = s.pc.toNat + instrLength i.opcode) := by
  have fits : s.pc.toNat + instrLength i.opcode < 2 ^ 16 := Nat.lt_of_le_of_lt hfit (by decide)
  cases i with
  | halt => exact .inl ⟨rfl, rfl⟩
  | jmp t => exact .inr (.inl ⟨t, rfl, jumpTo_pc_toNat s t⟩)
  | nop | setA _ | setX _ | drawBtp _ _ =>
    exact .inr (.inr ⟨by simp [Instr.opcode], State.advance_pc_toNat fits⟩)
  | undef op =>
    have hop : op ∉ definedOpcodes := wf_undef_iff.1 hw
    rw [show (Instr.undef op).opcode = op from rfl, instrLength_undef hop] at fits ⊢
    have both_defined : ([0x04, 0xFF] : List Byte) ⊆ definedOpcodes := by decide
    exact .inr (.inr ⟨fun h => hop (both_defined h), State.advance_pc_toNat fits⟩)

/-! ## One step -/

theorem step_of_fetch_committed {s : State} {i : Instr} (hr : s.status = .running)
    (hf : fetchInstr s = .ok i) : step s = .next (committed i s) := by
  obtain ⟨-, hfit, -⟩ := (fetchInstr_eq_ok_iff s i).1 hf
  rw [step_of_fetch hr hf, exec_in_code hfit]

/-- What one step can do: nothing while not running; the effect of the instruction at `PC`; or `MemFault`
by a row of R224's table. -/
theorem step_outcomes {s t : State} (h : step s = .next t) :
    (s.status ≠ .running ∧ t = s) ∨
    (s.status = .running ∧ ∃ i, fetchInstr s = .ok i ∧ t = committed i s) ∨
    (s.status = .running ∧ ∃ addr,
      (s.codeMem.read s.pc.toNat, s.pc.toNat, addr) ∈ memFaultTable ∧
      t = takeMemFault s (s.codeMem.read s.pc.toNat) addr) := by
  obtain hended | ⟨hr, i, hf, -⟩ | ⟨hr, op, start, hf, rfl⟩ := step_next_cases h
  · exact .inl hended
  · have := h.symm.trans (step_of_fetch_committed hr hf)
    exact .inr (.inl ⟨hr, i, hf, Host.Outcome.next.inj this⟩)
  · have hrow := fetchInstr_truncated_mem_table hf
    obtain ⟨hp, -, -⟩ := mem_memFaultTable_iff.1 hrow
    obtain rfl := fetchInstr_truncated_opcode hp hf
    exact .inr (.inr ⟨hr, _, hrow, rfl⟩)

/-- A running core with `CodeSize` in its buffer always has a next state. -/
theorem step_completes {s : State} (hcs : s.codeSize.toNat ≤ Config.codeMemSize) :
    ∃ t, step s = .next t := by
  by_cases hr : s.status = .running
  · obtain ⟨-, hp⟩ := (status_running_iff s).1 hr
    obtain ⟨i, hf⟩ | ⟨start, hf, -⟩ := fetchInstr_ok_or_table s (Nat.lt_of_lt_of_le hp hcs)
    · exact ⟨_, step_of_fetch_committed hr hf⟩
    · exact ⟨_, step_of_truncated hr hf⟩
  · exact ⟨s, step_of_not_running hr⟩

end Sys2Proof.Machine
end

section
/-! The step: what it runs, when it faults, where `PC` goes, and what it leaves alone
(spec/40_execution_cycle.md, spec/60_exceptions.md R224 to R228, spec/10_state.md section 2). -/

namespace Sys2Proof.Proofs

open Sys2Proof.Machine

/-- Settles O12: the bytes that decode are the bytes that a fetch decodes. -/
theorem stepRunsTheDecodedInstruction : Obligations.StepRunsTheDecodedInstruction :=
  fun _ _ _ hr hd => step_of_fetch hr (fetchInstr_of_decode hd)

/-- Settles O13: the bytes of a whole encoding at `PC` are all that a fetch asks. -/
theorem stepRunsTheInstructionInMemory : Obligations.StepRunsTheInstructionInMemory :=
  fun s i hr hw hfit hb => step_of_fetch hr ((fetchInstr_eq_ok_iff s i).2 ⟨hw, hfit, hb⟩)

/-- Settles O14. -/
theorem statusTestsFaultThenHalt : Obligations.StatusTestsFaultThenHalt := by
  intro s
  refine ⟨(status_faulted_iff s).2, fun hk hle => ?_, fun hk hlt => ?_⟩
  · exact (status_halted_iff s).2 ⟨(FaultKind.ne_memFault_iff _).2 hk, hle⟩
  · exact (status_running_iff s).2 ⟨(FaultKind.ne_memFault_iff _).2 hk, hlt⟩

/-- Settles O15: a step of an ended core is the identity, and so is any number of them. -/
theorem endedCoreNeverChanges : Obligations.EndedCoreNeverChanges :=
  fun _ n hended => steps_of_step_self (step_of_not_running hended) n

/-- Settles O10: a whole instruction leaves `Fault` clear and is in no row; a cut operand is a row, and the
row fixes the recorded offset. -/
theorem stepTakesMemFaultExactlyByTheTable : Obligations.StepTakesMemFaultExactlyByTheTable := by
  intro s t _ hr hstep
  obtain ⟨hk, -⟩ := (status_running_iff s).1 hr
  obtain ⟨hended, -⟩ | ⟨-, i, hf, rfl⟩ | ⟨-, addr, hrow, rfl⟩ := step_outcomes hstep
  · exact absurd hr hended
  · have no_row : ∀ addr, (s.codeMem.read s.pc.toNat, s.pc.toNat, addr) ∉ memFaultTable := by
      intro addr hrow
      rw [fetchInstr_opcode hf] at hrow
      obtain ⟨-, hcut, -⟩ := mem_memFaultTable_iff.1 hrow
      exact Nat.not_le_of_lt hcut (fetchInstr_in_code hf)
    rw [committed_fault]
    exact ⟨⟨fun h => absurd h hk, fun ⟨addr, hrow⟩ => absurd hrow (no_row addr)⟩,
      fun addr hrow => absurd hrow (no_row addr)⟩
  · refine ⟨⟨fun _ => ⟨addr, hrow⟩, fun _ => rfl⟩, fun addr' hrow' => ?_⟩
    obtain ⟨-, -, haddr⟩ := mem_memFaultTable_iff.1 hrow
    obtain ⟨-, -, haddr'⟩ := mem_memFaultTable_iff.1 hrow'
    rw [haddr, ← haddr']
    rfl

/-- Settles O11: only `MemFault` writes `Fault`, and a running core has taken none. -/
theorem memFaultCommitsNothingElse : Obligations.MemFaultCommitsNothingElse := by
  intro s t hstep hchanged
  obtain ⟨-, rfl⟩ | ⟨-, i, -, rfl⟩ | ⟨hr, addr, -, rfl⟩ := step_outcomes hstep
  · exact absurd rfl hchanged
  · exact absurd (committed_fault i s) hchanged
  · obtain ⟨hk, -⟩ := (status_running_iff s).1 hr
    exact ⟨rfl, rfl, (FaultKind.ne_memFault_iff _).1 hk⟩

/-- Settles O16: a step that leaves `Fault` alone committed the instruction at `PC`. -/
theorem pcAfterACommittedStep : Obligations.PcAfterACommittedStep := by
  intro s t _ hr hstep hsame
  obtain ⟨hended, -⟩ | ⟨-, i, hf, rfl⟩ | ⟨-, addr, -, rfl⟩ := step_outcomes hstep
  · exact absurd hr hended
  · obtain ⟨hw, -, -⟩ := (fetchInstr_eq_ok_iff s i).1 hf
    rw [fetchInstr_opcode hf]
    obtain ⟨rfl, hpc⟩ | ⟨target, rfl, hpc⟩ | ⟨hop, hpc⟩ :=
      committed_pc_cases hw (fetchInstr_in_code hf)
    · rw [hpc]
      rfl
    · rw [hpc, fetchInstr_jmp_target hf, Memory.read16_toNat]
      rfl
    · obtain ⟨h4, hFF⟩ : i.opcode ≠ 0x04 ∧ i.opcode ≠ 0xFF := by simpa using hop
      rw [hpc, if_neg hFF, if_neg h4]
  · obtain ⟨hk, -⟩ := (status_running_iff s).1 hr
    exact absurd (congrArg FaultRecord.kind hsame).symm hk

/-- Settles O17: the instruction lies in `CODE`, so it is fetched and commits, and `PC` falls through. -/
theorem instructionAcrossCodeSizeEndsHalted : Obligations.InstructionAcrossCodeSizeEndsHalted := by
  intro s hi hr hop hcross hfit
  obtain ⟨hcs, -⟩ := hi
  obtain ⟨hk, hp⟩ := (status_running_iff s).1 hr
  obtain ⟨i, hf⟩ := fetchInstr_of_fits (Nat.lt_of_lt_of_le hp hcs) hfit
  obtain ⟨hw, -, -⟩ := (fetchInstr_eq_ok_iff s i).1 hf
  rw [fetchInstr_opcode hf] at hop hcross ⊢
  obtain ⟨rfl, -⟩ | ⟨target, rfl, -⟩ | ⟨-, hpc⟩ := committed_pc_cases hw (fetchInstr_in_code hf)
  · exact absurd hop (by decide)
  · exact absurd (List.mem_cons_self) hop
  · refine ⟨_, step_of_fetch_committed hr hf, (status_halted_iff _).2 ⟨?_, ?_⟩, hpc⟩
    · rwa [committed_fault]
    · rw [committed_codeSize, hpc]
      exact Nat.le_of_lt hcross

/-- Settles O18: `MemFault` and every committed effect leave these fields alone. -/
theorem stepKeepsMemoryAndControlRegisters : Obligations.StepKeepsMemoryAndControlRegisters := by
  intro s t hstep
  have kept : t.codeMem = s.codeMem ∧ t.gfxMem = s.gfxMem ∧ t.codeSize = s.codeSize ∧
      t.entryPoint = s.entryPoint := by
    obtain ⟨-, rfl⟩ | ⟨-, i, -, rfl⟩ | ⟨-, addr, -, rfl⟩ := step_outcomes hstep <;> simp
  obtain ⟨hcode, hgfx, hcs, hep⟩ := kept
  exact ⟨fun a => by rw [hcode], fun a => by rw [hgfx], hcode, hgfx, hcs, hep⟩

/-- Settles O19: only a committed effect writes `A` or `X`, and it names the register's new value. -/
theorem onlySetAWritesAAndOnlySetXWritesX : Obligations.OnlySetAWritesAAndOnlySetXWritesX := by
  intro s t hstep
  obtain ⟨-, rfl⟩ | ⟨hr, i, hf, rfl⟩ | ⟨-, addr, -, rfl⟩ := step_outcomes hstep
  · exact ⟨fun h => absurd rfl h, fun h => absurd rfl h⟩
  · obtain ⟨pc, a, x, evs, heq, ha, hx, -⟩ := committed_eq i s
    rw [heq]
    refine ⟨fun h => ?_, fun h => ?_⟩
    · obtain rfl := ha.resolve_left h
      exact ⟨hf, hr⟩
    · obtain rfl := hx.resolve_left h
      exact ⟨hf, hr⟩
  · exact ⟨fun h => absurd rfl h, fun h => absurd rfl h⟩

end Sys2Proof.Proofs
end

section
/-! `JMP`, the undefined opcodes and `DRAW_BTP` by their own meanings, and R224's table by each meaning
(spec/41_data_and_control.md R143, R145; spec/42_draw_btp.md R180; spec/60_exceptions.md R224). -/

namespace Sys2Proof.Machine

/-- The model's sign reading is `BitVec`'s (R10). -/
theorem sext16_eq_toInt (v : Half) : sext16 v = v.toInt := by
  rw [BitVec.toInt_eq_toNat_cond]
  unfold sext16
  split_ifs <;> omega

theorem exec_jmp_in_code {s : State} (t : Half) (h : s.pc.toNat + 2 < Config.codeMemSize) :
    exec (.jmp t) s = .next (jumpTo s t) := by
  rw [exec_jmp, if_pos (Nat.succ_le_of_lt h)]

theorem exec_jmp_past_code {s : State} (t : Half) (h : Config.codeMemSize ≤ s.pc.toNat + 2) :
    exec (.jmp t) s = .next (takeMemFault s 0x04 (s.pc.toNat + 1)) := by
  rw [exec_jmp, if_neg (by omega)]

theorem exec_drawBtp_in_code {s : State} (x y : Half) (h : s.pc.toNat + 4 < Config.codeMemSize) :
    exec (.drawBtp x y) s =
      .next ((s.advance 5).emit (decodeBitmap s.gfxMem x.toInt y.toInt)) := by
  rw [exec_drawBtp, if_pos (Nat.succ_le_of_lt h), sext16_eq_toInt, sext16_eq_toInt]

/-- Past `CODE`, the offset recorded is `Y`'s only where `X` still fits (R228). -/
theorem exec_drawBtp_past_code {s : State} (x y : Half) (h : Config.codeMemSize ≤ s.pc.toNat + 4) :
    exec (.drawBtp x y) s = .next (takeMemFault s 0x08
      (if s.pc.toNat + 3 ≤ Config.codeMemSize then s.pc.toNat + 3 else s.pc.toNat + 1)) := by
  rw [exec_drawBtp, if_neg (by omega), apply_ite (takeMemFault s 0x08)]

/-- Where the opcode has one operand, the offset recorded is the one after the opcode (R224). -/
theorem memFaultTable_one_operand {op : Byte} {p addr : Nat} (hop : op ≠ 0x08)
    (h : (op, p, addr) ∈ memFaultTable) :
    Config.codeMemSize < p + instrLength op ∧ addr = p + 1 := by
  obtain ⟨-, hcut, haddr⟩ := mem_memFaultTable_iff.1 h
  rw [if_neg fun hc => hop hc.1] at haddr
  exact ⟨hcut, haddr⟩

end Sys2Proof.Machine

namespace Sys2Proof.Proofs

open Sys2Proof.Machine

/-- Settles O37: both readings subtract 2^16 from 2^15 on. -/
theorem signedOperandsAreTwosComplement : Obligations.SignedOperandsAreTwosComplement :=
  fun v => ⟨sext16_eq_toInt v, sext16_range v⟩

/-- Settles O4: the meaning on both sides of the operand's bound, and the jump on both sides of
`CodeSize`. -/
theorem jmpJumpsOrHaltsWithADiagnostic : Obligations.JmpJumpsOrHaltsWithADiagnostic := by
  refine ⟨fun b0 b1 tail => ⟨_, decode_jmp b0 b1 tail, le16_toNat b0 b1⟩, fun t s hp hlt => ?_,
    fun t s hp hle => ?_, fun t s hp => ⟨_, exec_jmp_past_code t hp, rfl⟩⟩
  · rw [exec_jmp_in_code t hp, jumpTo_of_lt hlt]
    rfl
  · rw [exec_jmp_in_code t hp, jumpTo_of_le hle]
    rfl

/-- Settles O5: the jump writes the value that `PC` already holds. -/
theorem jmpToItselfRunsForever : Obligations.JmpToItselfRunsForever := by
  intro s n hr hf hp
  obtain ⟨-, hlt⟩ := (status_running_iff s).1 hr
  have hself : step s = .next s := by
    rw [step_of_fetch hr hf, exec_jmp_in_code _ hp, jumpTo_of_lt hlt]
    rfl
  exact steps_of_step_self hself n

/-- Settles O7: both meanings are the advance by 1. -/
theorem undefinedOpcodeActsAsNop : Obligations.UndefinedOpcodeActsAsNop :=
  fun op hd => ⟨decode_undef hd, fun s _ => exec_undef op s,
    fun s => (exec_undef op s).trans (exec_nop s).symm⟩

/-- Settles O8: the meaning on both sides of the operands' bound, its signed reading that of
`sext16_eq_toInt`. -/
theorem drawBtpEmitsTheDecode : Obligations.DrawBtpEmitsTheDecode :=
  ⟨fun b0 b1 b2 b3 tail =>
      ⟨_, _, decode_drawBtp b0 b1 b2 b3 tail, le16_toNat b0 b1, le16_toNat b2 b3⟩,
    fun x y _ hp => exec_drawBtp_in_code x y hp,
    fun x y _ hp => ⟨_, exec_drawBtp_past_code x y hp, rfl⟩⟩

/-- Settles O9: a row says that the meaning's operand bound fails, and which offset it records. -/
theorem meaningTakesMemFaultByTheTable : Obligations.MeaningTakesMemFaultByTheTable := by
  rintro s v h k _ addr rfl
  refine ⟨fun hrow => ?_, fun hrow => ?_, fun hrow => ?_, fun hrow => ?_⟩
  · obtain ⟨hcut, rfl⟩ := memFaultTable_one_operand (by decide) hrow
    exact exec_setA_past_code v (Nat.le_of_lt_succ hcut)
  · obtain ⟨hcut, rfl⟩ := memFaultTable_one_operand (by decide) hrow
    exact exec_setX_past_code h (Nat.le_of_lt_succ hcut)
  · obtain ⟨hcut, rfl⟩ := memFaultTable_one_operand (by decide) hrow
    exact exec_jmp_past_code h (Nat.le_of_lt_succ hcut)
  · obtain ⟨-, hcut, haddr⟩ := mem_memFaultTable_iff.1 hrow
    rw [exec_drawBtp_past_code h k (Nat.le_of_lt_succ hcut), haddr]
    simp only [true_and]
    rfl

end Sys2Proof.Proofs
end

section
/-! The trace grows by a step's events alone, and no step reads `A` or `X` (spec/10_state.md sections 2
and 4). -/

namespace Sys2Proof.Machine

/-! ## Events -/

/-- The three sources of a step's events (R42). -/
theorem step_appends {s t : State} (h : step s = .next t) : ∃ evs, t.trace = s.trace ++ evs ∧
    (evs = [] ∨
      (∃ x y, fetchInstr s = .ok (.drawBtp x y) ∧ evs = decodeBitmap s.gfxMem x.toInt y.toInt) ∨
      (∃ target, fetchInstr s = .ok (.jmp target) ∧ s.codeSize.toNat ≤ target.toNat ∧
        evs = [.diag .outOfBoundsJump target s.pc])) := by
  obtain ⟨-, rfl⟩ | ⟨-, i, hf, rfl⟩ | ⟨-, addr, -, rfl⟩ := step_outcomes h
  · exact ⟨[], (List.append_nil _).symm, .inl rfl⟩
  · obtain ⟨_, _, _, evs, heq, -, -, hevs⟩ := committed_eq i s
    refine ⟨evs, by rw [heq], ?_⟩
    obtain rfl | ⟨x, y, rfl, rfl⟩ | ⟨target, rfl, hle, rfl⟩ := hevs
    · exact .inl rfl
    · exact .inr (.inl ⟨x, y, hf, by rw [sext16_eq_toInt, sext16_eq_toInt]⟩)
    · exact .inr (.inr ⟨target, hf, hle, rfl⟩)
  · exact ⟨[], (List.append_nil _).symm, .inl rfl⟩

theorem eventsSince_of_append {s t : State} {evs : List Event} (h : t.trace = s.trace ++ evs) :
    eventsSince s t = evs := by
  rw [eventsSince, h, List.drop_left]

/-! ## Two runs that differ in `A` and `X` -/

/-- How a register ends in a second run that began with `v` where the first began with `old`: both runs
wrote it alike, or neither wrote it. -/
def WrittenOrKept {α : Type} (old new v v' : α) : Prop := v' = new ∨ (new = old ∧ v' = v)

theorem WrittenOrKept.trans {α : Type} {old mid new v v' v'' : α} (h : WrittenOrKept old mid v v')
    (h' : WrittenOrKept mid new v' v'') : WrittenOrKept old new v v'' := by
  obtain rfl | ⟨rfl, rfl⟩ := h'
  · exact .inl rfl
  · exact h

theorem WrittenOrKept.kept {α : Type} (old v : α) : WrittenOrKept old old v v := .inr ⟨rfl, rfl⟩

theorem fetchInstr_with_a_x (s : State) (v : Byte) (w : Half) :
    fetchInstr { s with a := v, x := w } = fetchInstr s := by
  have same_bytes : codeBytes { s with a := v, x := w } s.pc.toNat Config.maxInstrBytes =
      codeBytes s s.pc.toNat Config.maxInstrBytes := by
    rw [codeBytes_eq, codeBytes_eq]
  simp only [fetchInstr, same_bytes]

theorem jumpTo_with_a_x (s : State) (v : Byte) (w : Half) (t : Half) :
    jumpTo { s with a := v, x := w } t = { jumpTo s t with a := v, x := w } := by
  unfold jumpTo
  split <;> rfl

theorem jumpTo_a (s : State) (t : Half) : (jumpTo s t).a = s.a := by
  unfold jumpTo
  split <;> rfl

theorem jumpTo_x (s : State) (t : Half) : (jumpTo s t).x = s.x := by
  unfold jumpTo
  split <;> rfl

/-- `SET_A` and `SET_X` write their operand in both runs; every other effect keeps both registers. -/
theorem committed_with_a_x (i : Instr) (s : State) (v : Byte) (w : Half) : ∃ v' w',
    committed i { s with a := v, x := w } = { committed i s with a := v', x := w' } ∧
      WrittenOrKept s.a (committed i s).a v v' ∧ WrittenOrKept s.x (committed i s).x w w' := by
  cases i with
  | nop | halt | undef _ | drawBtp _ _ => exact ⟨v, w, rfl, WrittenOrKept.kept _ _, WrittenOrKept.kept _ _⟩
  | setA b => exact ⟨b, w, rfl, .inl rfl, WrittenOrKept.kept _ _⟩
  | setX b => exact ⟨v, b, rfl, WrittenOrKept.kept _ _, .inl rfl⟩
  | jmp t =>
    exact ⟨v, w, jumpTo_with_a_x s v w t, .inr ⟨jumpTo_a s t, rfl⟩, .inr ⟨jumpTo_x s t, rfl⟩⟩

theorem step_with_a_x {s t : State} (h : step s = .next t) (v : Byte) (w : Half) : ∃ v' w',
    step { s with a := v, x := w } = .next { t with a := v', x := w' } ∧
      WrittenOrKept s.a t.a v v' ∧ WrittenOrKept s.x t.x w w' := by
  have hstatus : State.status { s with a := v, x := w } = s.status := rfl
  have hfetch := fetchInstr_with_a_x s v w
  obtain ⟨hr, rfl⟩ | ⟨hr, i, hf, hx⟩ | ⟨hr, op, start, hf, rfl⟩ := step_next_cases h
  · exact ⟨v, w, step_of_not_running (hstatus.trans_ne hr),
      WrittenOrKept.kept _ _, WrittenOrKept.kept _ _⟩
  · obtain rfl := Host.Outcome.next.inj (h.symm.trans (step_of_fetch_committed hr hf))
    obtain ⟨v', w', heq, ha, hx⟩ := committed_with_a_x i s v w
    have hstep := step_of_fetch_committed (hstatus.trans hr) (hfetch.trans hf)
    exact ⟨v', w', by rw [hstep, heq], ha, hx⟩
  · exact ⟨v, w, step_of_truncated (hstatus.trans hr) (hfetch.trans hf),
      WrittenOrKept.kept _ _, WrittenOrKept.kept _ _⟩

end Sys2Proof.Machine

namespace Sys2Proof.Proofs

open Sys2Proof.Machine

/-- Settles O20, by what a step can do (`step_appends`). -/
theorem stepAppendsItsEvents : Obligations.StepAppendsItsEvents := fun _ _ => step_appends

/-- Settles O50: the events since the old trace are what the step appended. -/
theorem stepPortAnswersStatusAndEvents : Obligations.StepPortAnswersStatusAndEvents := by
  intro h t hstep
  obtain ⟨evs, htrace, -⟩ := step_appends hstep
  exact ⟨_, stepPort_of_step hstep, rfl, by rw [eventsSince_of_append htrace, htrace]⟩

/-- Settles O21, by induction on the number of steps: what the first step writes or keeps, the others write
or keep. -/
theorem noStepReadsAOrX : Obligations.NoStepReadsAOrX := by
  intro n
  induction n with
  | zero =>
    intro s t v w hrun
    cases hrun
    exact ⟨v, w, rfl, WrittenOrKept.kept _ _, WrittenOrKept.kept _ _⟩
  | succ n ih =>
    intro s t v w hrun
    obtain ⟨u, hstep, hrest⟩ := steps_succ_next hrun
    obtain ⟨v₁, w₁, hstep', ha₁, hx₁⟩ := step_with_a_x hstep v w
    obtain ⟨v', w', hrest', ha', hx'⟩ := ih u t v₁ w₁ hrest
    exact ⟨v', w', (steps_succ_of_step hstep').trans hrest', ha₁.trans ha', hx₁.trans hx'⟩

end Sys2Proof.Proofs
end

section
/-! The invariant of R45 holds at reset, is kept by every step, and so holds along every run. -/

namespace Sys2Proof.Machine

theorem stateInv_reset : StateInv State.reset := by decide

/-- While `Fault` is clear, R36 asks nothing of the rest of the state. -/
theorem faultRecordWf_of_clear {s : State} (h : s.fault = FaultRecord.clear) : faultRecordWf s := by
  refine ⟨fun _ => h, fun hk => ?_⟩
  rw [h] at hk
  cases hk

theorem fault_clear_of_running {s : State} (hf : faultRecordWf s) (hr : s.status = .running) :
    s.fault = FaultRecord.clear := by
  obtain ⟨hk, -⟩ := (status_running_iff s).1 hr
  exact hf.1 ((FaultKind.ne_memFault_iff _).1 hk)

/-- A row of R224's table gives the record that R36 describes. -/
theorem faultRecordWf_takeMemFault {s : State} {addr : Nat} (hp : s.pc.toNat < s.codeSize.toNat)
    (hrow : (s.codeMem.read s.pc.toNat, s.pc.toNat, addr) ∈ memFaultTable) :
    faultRecordWf (takeMemFault s (s.codeMem.read s.pc.toNat) addr) := by
  obtain ⟨hop, haddr⟩ := memFaultTable_range hrow
  refine ⟨fun hk => (nomatch hk), fun _ => ⟨rfl, hp, rfl, hop, ?_⟩⟩
  obtain rfl | rfl := haddr
  · exact .inl rfl
  · exact .inr rfl

/-- After an instruction in `CODE`, `PC` is at most `CODE_MEM_SIZE` (R33, R45). -/
theorem committed_pc_le {i : Instr} {s : State} (hcs : s.codeSize.toNat ≤ Config.codeMemSize)
    (hf : fetchInstr s = .ok i) : (committed i s).pc.toNat ≤ Config.codeMemSize := by
  obtain ⟨hw, -, -⟩ := (fetchInstr_eq_ok_iff s i).1 hf
  have hfit := fetchInstr_in_code hf
  obtain ⟨-, hpc⟩ | ⟨t, -, hpc⟩ | ⟨-, hpc⟩ := committed_pc_cases hw hfit
  · rwa [hpc]
  · rw [hpc]
    exact (Nat.min_le_left _ _).trans hcs
  · rwa [hpc]

theorem step_keeps_stateInv {s t : State} (hi : StateInv s) (h : step s = .next t) : StateInv t := by
  obtain ⟨-, rfl⟩ | ⟨hr, i, hf, rfl⟩ | ⟨hr, addr, hrow, rfl⟩ := step_outcomes h
  · exact hi
  · obtain ⟨hcs, -, hcw, hcb, hgw, hgb, hfault⟩ := hi
    refine ⟨?_, committed_pc_le hcs hf, ?_, ?_, ?_, ?_, faultRecordWf_of_clear ?_⟩
    · rwa [committed_codeSize]
    · rwa [committed_codeMem]
    · rwa [committed_codeMem, committed_codeSize]
    · rwa [committed_gfxMem]
    · rwa [committed_gfxMem]
    · rw [committed_fault]
      exact fault_clear_of_running hfault hr
  · obtain ⟨hcs, hpc, hcw, hcb, hgw, hgb, -⟩ := hi
    obtain ⟨-, hp⟩ := (status_running_iff s).1 hr
    exact ⟨hcs, hpc, hcw, hcb, hgw, hgb, faultRecordWf_takeMemFault hp hrow⟩

/-- The invariant carried along a run: each step from it has a next state, which meets it again. -/
theorem steps_complete_in_stateInv {s : State} (hi : StateInv s) (n : Nat) :
    ∃ t, steps n s = .next t ∧ StateInv t := by
  induction n generalizing s with
  | zero => exact ⟨s, rfl, hi⟩
  | succ n ih =>
    obtain ⟨u, hstep⟩ := step_completes hi.1
    obtain ⟨t, hrun, ht⟩ := ih (step_keeps_stateInv hi hstep)
    exact ⟨t, (steps_succ_of_step hstep).trans hrun, ht⟩

end Sys2Proof.Machine

namespace Sys2Proof.Proofs

open Sys2Proof.Machine

/-- Settles O23: the fields of `State.reset`, and an empty memory that reads 0 everywhere. -/
theorem resetIsAllZeroAndHalted : Obligations.ResetIsAllZeroAndHalted :=
  ⟨rfl, rfl, rfl, rfl, rfl, rfl, Memory.read_nil, Memory.read_nil, rfl, State.reset_halted⟩

/-- Settles O24: the base of every run's induction. -/
theorem resetMeetsTheInvariant : Obligations.ResetMeetsTheInvariant := stateInv_reset

/-- Settles O25, by what a step can do: an effect keeps all but `PC`, which stays in its range; a `MemFault`
keeps all but the record, which a row of the table describes. -/
theorem stepKeepsTheInvariant : Obligations.StepKeepsTheInvariant := fun _ _ => step_keeps_stateInv

/-- Settles O26: `PC < CodeSize` leaves a byte to fetch, and every fetch has an outcome. -/
theorem stepFromTheInvariantAlwaysCompletes : Obligations.StepFromTheInvariantAlwaysCompletes :=
  fun _ ⟨hcs, _⟩ => step_completes hcs

end Sys2Proof.Proofs
end

section
/-! The load of a cartridge: the checks, the payloads in their buffers, and the invariant after it
(spec/70_reset_and_hazards.md R261 to R271); and a word placed where the step fetches. -/

namespace Sys2Proof.Machine

/-! ## Buffers written from offset 0 of an empty memory, and read back -/

theorem Memory.wf_nil : Memory.wf [] := ⟨.nil, nofun⟩

/-- A payload in an empty buffer (R66): its bytes up to the clamp, and 0 elsewhere. -/
theorem Memory.read_writeRange_nil (size i : Nat) (bytes : List Byte) :
    (Memory.writeRange size [] 0 bytes).read i =
      if i < min bytes.length size then bytes.getD i 0 else 0 := by
  rw [Memory.read_writeRange size 0 i bytes Memory.wf_nil]
  simp [Memory.unlisted_eq_zero]

theorem Memory.writeRange_nil_below (size : Nat) (bytes : List Byte) :
    (Memory.writeRange size [] 0 bytes).below (min bytes.length size) := by
  refine Memory.writeBytes_below 0 _ nofun ?_
  rw [List.length_take]
  omega

theorem readBytes_getElem (m : Memory) (a n k : Nat) (h : k < (readBytes m a n).length) :
    (readBytes m a n)[k] = m.read (a + k) := by
  induction n generalizing a k with
  | zero => cases h
  | succ n ih =>
    cases k with
    | zero => rfl
    | succ k =>
      have hk : k < (readBytes m (a + 1) n).length := by simpa using h
      rw [show a + (k + 1) = a + 1 + k by omega, ← ih (a + 1) k hk]
      rfl

/-- Bytes written inside a buffer are read back in order. -/
theorem readBytes_writeRange {m : Memory} (hm : m.wf) {size start : Nat} {bytes : List Byte}
    (h : start + bytes.length ≤ size) :
    readBytes (m.writeRange size start bytes) start bytes.length = bytes := by
  refine List.ext_getElem (readBytes_length _ _ _) fun k hk hk' => ?_
  rw [readBytes_getElem, Memory.read_writeRange _ _ _ _ hm, if_pos (by omega)]
  simp [hk']

/-! ## The checks -/

/-- R261's checks as one condition. -/
theorem loadResult_eq_ok_iff (S : List Byte) : loadResult S = .ok ↔
    S.take 10 = Config.magic ∧ 22 ≤ S.length ∧
      0 ≤ signed32 (cartHeader S).codeLength ∧ 0 ≤ signed32 (cartHeader S).gfxLength ∧
      22 + codeLength S + gfxLength S ≤ S.length := by
  have hmagic : Config.magic.length = 10 := rfl
  unfold loadResult
  rw [hmagic]
  constructor
  · intro h
    split_ifs at h with hshort htag hhead hsign hpay
    rw [not_or, Int.not_lt, Int.not_lt] at hsign
    exact ⟨not_ne_iff.1 htag, Nat.le_of_not_lt hhead, hsign.1, hsign.2, Nat.le_of_not_lt hpay⟩
  · rintro ⟨htag, hhead, hc, hg, hpay⟩
    rw [if_neg (by omega), if_neg (not_ne_iff.2 htag), if_neg (Nat.not_lt_of_le hhead),
      if_neg (by omega), if_neg (Nat.not_lt_of_le hpay)]

/-- Where the first 10 bytes are not the magic, the result carries the bytes read, all of a shorter
stream. -/
theorem loadResult_of_bad_magic {S : List Byte} (h : S.take 10 ≠ Config.magic) :
    loadResult S = .invalidFormat (S.take 10) := by
  have hmagic : Config.magic.length = 10 := rfl
  unfold loadResult
  rw [hmagic]
  split_ifs with hshort
  · rw [List.take_of_length_le (Nat.le_of_lt hshort)]
  · rfl

theorem headerLayout (S : List Byte) : HeaderLayout S := by
  intro k v hkv
  simp only [List.mem_cons, List.not_mem_nil, or_false, Prod.mk.injEq] at hkv
  obtain ⟨rfl, rfl⟩ | ⟨rfl, rfl⟩ | ⟨rfl, rfl⟩ := hkv
  · exact streamLong_toNat S 10
  · exact streamLong_toNat S 14
  · exact streamLong_toNat S 18

/-! ## The payloads -/

theorem getD_take_drop (S : List Byte) {start n i : Nat} (h : i < n) :
    ((S.drop start).take n).getD i 0 = streamByte S (start + i) := by
  simp [streamByte, List.getD_eq_getElem?_getD, List.getElem?_take_of_lt h]

theorem codePayload_length_le (S : List Byte) : (codePayload S).length ≤ codeLength S :=
  List.length_take_le _ _

theorem codePayload_length {S : List Byte} (h : 22 + codeLength S + gfxLength S ≤ S.length) :
    (codePayload S).length = codeLength S := by
  rw [codePayload, List.length_take, List.length_drop]
  simp only [Config.cartHeaderBytes]
  omega

theorem gfxPayload_length {S : List Byte} (h : 22 + codeLength S + gfxLength S ≤ S.length) :
    (gfxPayload S).length = gfxLength S := by
  rw [gfxPayload, List.length_take, List.length_drop]
  simp only [Config.cartHeaderBytes]
  omega

/-! ## The state after a load -/

theorem commitLoad_codeSize_toNat (S : List Byte) (s : State) :
    (commitLoad S s).codeSize.toNat = min (codeLength S) Config.codeMemSize := by
  rw [commitLoad_codeSize, BitVec.toNat_ofNat]
  exact Nat.mod_eq_of_lt (Nat.lt_of_le_of_lt (Nat.min_le_right _ _) (by decide))

theorem loadedFrom_commitLoad {S : List Byte} (h : loadResult S = .ok) :
    LoadedFrom S (commitLoad S State.reset) := by
  obtain ⟨-, -, -, -, hpay⟩ := (loadResult_eq_ok_iff S).1 h
  refine ⟨rfl, rfl, rfl, rfl, commitLoad_codeSize_toNat S _, fun i => ?_, fun i => ?_, rfl⟩
  · rw [commitLoad_codeSize_toNat, commitLoad_codeMem, State.reset_codeMem,
      Memory.read_writeRange_nil, codePayload_length hpay]
    split
    · exact getD_take_drop S (by omega)
    · rfl
  · rw [commitLoad_gfxMem, State.reset_gfxMem, Memory.read_writeRange_nil, gfxPayload_length hpay]
    split
    · exact getD_take_drop S (by omega)
    · rfl

/-- Both payloads stay in their buffers, and the code below `CodeSize`. -/
theorem stateInv_commitLoad (S : List Byte) : StateInv (commitLoad S State.reset) := by
  have hcs := commitLoad_codeSize_toNat S State.reset
  refine ⟨hcs ▸ Nat.min_le_right _ _, Nat.zero_le _, Memory.writeRange_wf _ _ _ Memory.wf_nil, ?_,
    Memory.writeRange_wf _ _ _ Memory.wf_nil, ?_, faultRecordWf_of_clear rfl⟩
  · intro c hc
    have hlt := Memory.writeRange_nil_below _ _ c hc
    have hlen := codePayload_length_le S
    omega
  · intro c hc
    exact Nat.lt_of_lt_of_le (Memory.writeRange_nil_below _ _ c hc) (Nat.min_le_right _ _)

theorem stateInv_boot (S : List Byte) : StateInv (boot (some S)).1 := by
  by_cases hok : loadResult S = .ok
  · rw [boot_some, loadImage_ok hok]
    exact stateInv_commitLoad S
  · rw [boot_some_failed hok]
    exact stateInv_reset

/-! ## A placed word -/

theorem placeAt_le (s : State) : placeAt s + Config.maxInstrBytes ≤ Config.codeMemSize := by
  unfold placeAt
  split
  · assumption
  · decide

theorem wordBytes_length (nbits w : Nat) : (wordBytes nbits w).length = Config.maxInstrBytes := by
  rw [wordBytes, List.length_map, List.length_range]

theorem decode_of_decodeTableWord {nbits w : Nat} {i : Instr} (h : decodeTableWord nbits w = some i) :
    ∃ rest, decode (wordBytes nbits w) = .ok (i, rest) := by
  unfold decodeTableWord at h
  split at h
  · next rest hd =>
    cases h
    exact ⟨rest, hd⟩
  · cases h

section
variable {s : State} (hi : StateInv s) (nbits w : Nat)

theorem withFetchWord_pc_toNat (s : State) : (s.withFetchWord nbits w).pc.toNat = placeAt s := by
  have hfit := placeAt_le s
  simp only [Config.maxInstrBytes, Config.lengthF4, Config.codeMemSize] at hfit
  rw [State.withFetchWord_pc, BitVec.toNat_ofNat]
  exact Nat.mod_eq_of_lt (show placeAt s < 2 ^ 16 by omega)

include hi

theorem withFetchWord_running (hn : nbits ≤ 40) : (s.withFetchWord nbits w).status = .running := by
  refine (status_running_iff _).2 ⟨nofun, ?_⟩
  obtain ⟨hcs, -⟩ := hi
  have hfit := placeAt_le s
  simp only [Config.maxInstrBytes, Config.lengthF4, Config.codeMemSize] at hfit hcs
  have hsize : max s.codeSize.toNat (placeAt s + max 1 ((nbits + 7) / 8)) < 2 ^ 16 := by omega
  rw [withFetchWord_pc_toNat, State.withFetchWord_codeSize, BitVec.toNat_ofNat,
    Nat.mod_eq_of_lt hsize]
  omega

theorem codeBytes_withFetchWord :
    codeBytes (s.withFetchWord nbits w) (placeAt s) Config.maxInstrBytes = wordBytes nbits w := by
  obtain ⟨-, -, hwf, -⟩ := hi
  rw [codeBytes_eq_readBytes _ _ _ (placeAt_le s), State.withFetchWord_codeMem,
    ← wordBytes_length nbits w]
  exact readBytes_writeRange hwf (wordBytes_length nbits w ▸ placeAt_le s)

end

end Sys2Proof.Machine

namespace Sys2Proof.Proofs

open Sys2Proof.Machine

/-- Settles O27: a load that passes the checks commits within the buffers, and any other leaves the reset
state. -/
theorem loadMeetsTheInvariant : Obligations.LoadMeetsTheInvariant := stateInv_boot

/-- Settles O28: the load meets the invariant, which every step keeps. -/
theorem everyRunStaysInTheInvariant : Obligations.EveryRunStaysInTheInvariant :=
  fun S n => steps_complete_in_stateInv (stateInv_boot S) n

/-- Settles O34: the fetch reads back the bytes placed. -/
theorem placedWordIsTheNextInstruction : Obligations.PlacedWordIsTheNextInstruction := by
  intro s nbits w i hi hn hword
  have hr := withFetchWord_running hi nbits w hn
  obtain ⟨rest, hd⟩ := decode_of_decodeTableWord hword
  refine ⟨hr, step_of_fetch hr (fetchInstr_of_decode (rest := rest) ?_)⟩
  rw [withFetchWord_pc_toNat, codeBytes_withFetchWord hi, hd]

/-- Settles O45: the load commits, and each payload is read back from its buffer. -/
theorem successfulLoadWritesTheImage : Obligations.SuccessfulLoadWritesTheImage := by
  intro S hok
  exact ⟨headerLayout S, _, (boot_some S).trans (loadImage_ok hok _), loadedFrom_commitLoad hok, rfl⟩

/-- Settles O47: lengths that are not negative are their own natural numbers. -/
theorem loadSucceedsExactlyOnWholeImages : Obligations.LoadSucceedsExactlyOnWholeImages := by
  intro S
  refine ⟨headerLayout S, ?_⟩
  rw [loadResult_eq_ok_iff]
  unfold codeLength gfxLength
  refine and_congr_right fun _ => and_congr_right fun _ => and_congr_right fun hc =>
    and_congr_right fun hg => ?_
  omega

/-- Settles O48: the check of the magic comes before every other and writes nothing. -/
theorem badMagicIsInvalidFormat : Obligations.BadMagicIsInvalidFormat := by
  intro S hbad
  have hres := loadResult_of_bad_magic hbad
  rw [boot_some_failed (by rw [hres]; nofun), hres]

/-- Settles O49: an open port in the reset state loads as the boot order does; any other refuses. -/
theorem loadPortWorksOnlyInReset : Obligations.LoadPortWorksOnlyInReset := by
  refine ⟨loadPort_open rfl rfl, fun S h hclosed => if_neg ?_⟩
  rintro ⟨hopen, hreset⟩
  obtain hc | hc := hclosed
  · exact absurd (hopen.symm.trans hc) (by decide)
  · exact hc hreset

end Sys2Proof.Proofs
end

section
/-! The frame loop as plain steps (spec/70_reset_and_hazards.md R272, R274). -/

namespace Sys2Proof

open Sys2Proof.Machine

/-- Go on with `f` from the next state; a stop stays the stop it is. -/
def andThen (o : Host.Outcome State Fault Refusal) (f : State → Host.Outcome State Fault Refusal) :
    Host.Outcome State Fault Refusal :=
  match o with
  | .next s => f s
  | .fault r => .fault r
  | .refused r => .refused r

@[simp] theorem andThen_next (s : State) (f : State → Host.Outcome State Fault Refusal) :
    andThen (.next s) f = f s := rfl

theorem andThen_assoc (o : Host.Outcome State Fault Refusal)
    (f g : State → Host.Outcome State Fault Refusal) :
    andThen (andThen o f) g = andThen o fun s => andThen (f s) g := by
  cases o <;> rfl

theorem steps_succ_eq_andThen (n : Nat) (s : State) :
    steps (n + 1) s = andThen (step s) (steps n) := by
  rw [steps_succ]
  cases step s <;> rfl

theorem steps_add (a b : Nat) (s : State) : steps (a + b) s = andThen (steps a s) (steps b) := by
  induction a generalizing s with
  | zero => rw [Nat.zero_add, steps_zero, andThen_next]
  | succ a ih =>
    rw [Nat.succ_add, steps_succ_eq_andThen, steps_succ_eq_andThen, andThen_assoc]
    exact congrArg (andThen (step s)) (funext ih)

theorem hostLoop_succ (n : Nat) (s : State) :
    hostLoop (n + 1) s = andThen (frame s) (hostLoop n) := by
  rw [hostLoop]
  cases frame s <;> rfl

theorem frameSteps_succ_of_running {quota : Nat} {s : State} (h : s.status = .running) :
    frameSteps (quota + 1) s = andThen (step s) (frameSteps quota) := by
  rw [frameSteps, if_pos h]
  cases step s <;> rfl

theorem frameSteps_succ_of_ended {quota : Nat} {s : State} (h : s.status ≠ .running) :
    frameSteps (quota + 1) s = .next s := by
  rw [frameSteps, if_neg h]

/-- Ending the frame early skips only steps that change nothing (R127, R128). -/
theorem frameSteps_eq_steps (quota : Nat) (s : State) : frameSteps quota s = steps quota s := by
  induction quota generalizing s with
  | zero => rfl
  | succ quota ih =>
    by_cases hr : s.status = .running
    · rw [frameSteps_succ_of_running hr, steps_succ_eq_andThen, funext ih]
    · rw [frameSteps_succ_of_ended hr, steps_of_step_self (step_of_not_running hr)]

end Sys2Proof

namespace Sys2Proof.Proofs

open Sys2Proof.Machine

/-- Settles O51, by induction on the frames, each of which is ten steps. -/
theorem framesAreJustSteps : Obligations.FramesAreJustSteps := by
  intro n
  induction n with
  | zero => exact fun s => rfl
  | succ n ih =>
    intro s
    calc hostLoop (n + 1) s
        = andThen (frameSteps 10 s) (hostLoop n) := hostLoop_succ n s
      _ = andThen (steps 10 s) (steps (10 * n)) := by rw [frameSteps_eq_steps, funext ih]
      _ = steps (10 * (n + 1)) s := by rw [← steps_add, Nat.mul_succ, Nat.add_comm]

end Sys2Proof.Proofs
end

section
/-! The host's requests from power-on (spec/70_reset_and_hazards.md R269, R279): answered to the end, or
refused at the load that comes too late. -/

namespace Sys2Proof.Machine

/-- Requests end with all answers where `P` holds, and otherwise in the load port's refusal. -/
def AnsweredIff (P : Prop) (o : Host.Outcome (Session × List HostResponse) Fault Refusal) : Prop :=
  (P → ∃ h rs, o = .next (h, rs)) ∧ (¬ P → o = .refused .loadOutsideReset)

/-- A first request that is answered leaves the end to the other requests. -/
theorem AnsweredIff.cons {P : Prop} {q : HostRequest} {qs : List HostRequest} {h k : Session}
    {r : HostResponse} (hq : hostPort q h = .next (k, r)) (hqs : AnsweredIff P (hostRun qs k)) :
    AnsweredIff P (hostRun (q :: qs) h) := by
  rw [hostRun_cons hq]
  refine ⟨fun hp => ?_, fun hp => ?_⟩
  · obtain ⟨l, rs, hrun⟩ := hqs.1 hp
    exact ⟨l, r :: rs, by rw [hrun]⟩
  · rw [hqs.2 hp]

theorem AnsweredIff.congr {P Q : Prop} {o : Host.Outcome (Session × List HostResponse) Fault Refusal}
    (h : P ↔ Q) (ho : AnsweredIff P o) : AnsweredIff Q o :=
  propext h ▸ ho

/-! ## Each request's answer -/

theorem hostPort_inspect (h : Session) :
    hostPort .inspect h = .next (h, .inspected (inspect h.core)) := rfl

theorem hostPort_close (h : Session) : hostPort .close h = .next (h, .nothing) := rfl

/-- A step request from the invariant is answered, closes the load port and keeps the invariant. -/
theorem hostPort_step {h : Session} (hi : StateInv h.core) :
    ∃ k r, hostPort .step h = .next (k, r) ∧ k.loadOpen = false ∧ StateInv k.core := by
  obtain ⟨t, hstep⟩ := step_completes hi.1
  refine ⟨⟨t, false⟩, .stepped ⟨t.status, eventsSince h.core t⟩, ?_, rfl,
    step_keeps_stateInv hi hstep⟩
  simp only [hostPort, stepPort_of_step hstep]

theorem hostPort_load_powerOn (S : List Byte) :
    hostPort (.load S) powerOn = .next (⟨(boot (some S)).1, false⟩, .loaded (boot (some S)).2) := by
  simp only [hostPort, loadPort_open powerOn_loadOpen powerOn_core, powerOn_core, boot_some]

theorem hostPort_load_closed {h : Session} (hc : h.loadOpen = false) (S : List Byte) :
    hostPort (.load S) h = .refused .loadOutsideReset := by
  simp only [hostPort, loadPort_closed hc]

/-! ## Requests once the load port is closed -/

/-- Once the load port is closed, all requests are answered exactly where none is a load. -/
theorem hostRun_closed {h : Session} (hc : h.loadOpen = false) (hi : StateInv h.core)
    (qs : List HostRequest) : AnsweredIff (∀ S, .load S ∉ qs) (hostRun qs h) := by
  induction qs generalizing h with
  | nil => exact ⟨fun _ => ⟨h, [], rfl⟩, fun hp => absurd (fun S => List.not_mem_nil) hp⟩
  | cons q qs ih =>
    cases q with
    | load S =>
      refine ⟨fun hp => absurd List.mem_cons_self (hp S), fun _ => ?_⟩
      exact hostRun_cons_refused (hostPort_load_closed hc S) qs
    | step =>
      obtain ⟨k, r, hq, hkc, hki⟩ := hostPort_step hi
      exact .congr (by simp) (.cons hq (ih hkc hki))
    | inspect => exact .congr (by simp) (.cons (hostPort_inspect h) (ih hc hi))
    | close => exact .congr (by simp) (.cons (hostPort_close h) (ih hc hi))

/-! ## R269's condition, request by request -/

theorem loadsOnceFirst_nil : LoadsOnceFirst [] := by
  intro pre S post h
  simp at h

/-- An inspect or a close request before the others does not matter. -/
theorem loadsOnceFirst_cons_quiet {q : HostRequest} (hq : q = .inspect ∨ q = .close)
    (qs : List HostRequest) : LoadsOnceFirst (q :: qs) ↔ LoadsOnceFirst qs := by
  refine ⟨fun h pre S post heq p hp => ?_, fun h pre S post heq p hp => ?_⟩
  · exact h (q :: pre) S post (by rw [heq, List.cons_append]) p (List.mem_cons_of_mem q hp)
  · cases pre with
    | nil => cases hp
    | cons p' pre =>
      obtain ⟨rfl, heq'⟩ := List.cons.inj heq
      obtain rfl | hp := List.mem_cons.1 hp
      · exact hq
      · exact h pre S post heq' p hp

/-- After a load or a step request no load may come. -/
theorem loadsOnceFirst_cons_use {q : HostRequest} (hq : ¬ (q = .inspect ∨ q = .close))
    (qs : List HostRequest) : LoadsOnceFirst (q :: qs) ↔ ∀ S, .load S ∉ qs := by
  refine ⟨fun h S hS => ?_, fun h pre S post heq p hp => ?_⟩
  · obtain ⟨pre, post, rfl⟩ := List.append_of_mem hS
    exact hq (h (q :: pre) S post rfl q List.mem_cons_self)
  · cases pre with
    | nil => cases hp
    | cons p' pre =>
      obtain ⟨-, rfl⟩ := List.cons.inj heq
      exact absurd (List.mem_append_right pre List.mem_cons_self) (h S)

end Sys2Proof.Machine

namespace Sys2Proof.Proofs

open Sys2Proof.Machine

/-- Settles O52, by induction on the requests: an inspect or close request leaves the session at power-on;
a load or a step request closes the load port, from a state that meets the invariant. -/
theorem loadIsAnsweredOnceBeforeTheFirstStep : Obligations.LoadIsAnsweredOnceBeforeTheFirstStep := by
  intro reqs
  change AnsweredIff (LoadsOnceFirst reqs) (hostRun reqs powerOn)
  induction reqs with
  | nil => exact ⟨fun _ => ⟨powerOn, [], rfl⟩, fun hp => absurd loadsOnceFirst_nil hp⟩
  | cons q qs ih =>
    cases q with
    | load S =>
      exact .congr (loadsOnceFirst_cons_use (by simp) qs).symm
        (.cons (hostPort_load_powerOn S) (hostRun_closed rfl (stateInv_boot S) qs))
    | step =>
      obtain ⟨k, r, hq, hkc, hki⟩ := hostPort_step (h := powerOn) stateInv_reset
      exact .congr (loadsOnceFirst_cons_use (by simp) qs).symm
        (.cons hq (hostRun_closed hkc hki qs))
    | inspect =>
      exact .congr (loadsOnceFirst_cons_quiet (.inl rfl) qs).symm (.cons (hostPort_inspect _) ih)
    | close =>
      exact .congr (loadsOnceFirst_cons_quiet (.inr rfl) qs).symm (.cons (hostPort_close _) ih)

/-- Settles O53: neither request's answer has another session in it. -/
theorem inspectAndCloseChangeNothing : Obligations.InspectAndCloseChangeNothing :=
  fun h => ⟨hostPort_inspect h, hostPort_close h⟩

/-- Settles O35: one bound for both spaces, with the sum of R64 in the statement's form. -/
theorem readsCheckTheBufferLength : Obligations.ReadsCheckTheBufferLength := by
  intro s a n hn
  have fits (sp : Space) (h : a + n - 1 < sp.size) :
      memRead s sp a n = .ok (readBytes (s.mem sp) a n) := memRead_ok (by omega)
  have passes (sp : Space) (h : sp.size ≤ a + n - 1) :
      memRead s sp a n = .error ⟨sp, a⟩ := memRead_error (by omega)
  exact ⟨fits .code, passes .code, fits .gfx, passes .gfx⟩

end Sys2Proof.Proofs
end

section
/-! The decoder's loops as runs over the data bytes of the bitmap (spec/42_draw_btp.md R185, R186, R193,
R195): each loop, entered at the pointer of data byte `k`, emits the events of the next `c` bytes as far as
graphics memory goes. -/

namespace Sys2Proof.Machine

/-! ## A data byte's place in the bitmap -/

/-- The data byte of pixel pair `px` in row `py` of the tile at column `tx` and row `ty`, in a bitmap of `tw`
tiles a row: tile after tile, row after row, pair after pair (R185). -/
def tileByte (tw ty tx py px : Nat) : Nat := 32 * (ty * tw + tx) + 4 * py + px

theorem byteColumn_tileByte {tw tx py px : Nat} (ty : Nat) (htx : tx < tw) (hpy : py < 8) (hpx : px < 4) :
    byteColumn tw (tileByte tw ty tx py px) = 8 * tx + 2 * px := by
  have htile : tileByte tw ty tx py px / 32 = ty * tw + tx := by unfold tileByte; omega
  have hpair : tileByte tw ty tx py px % 4 = px := by unfold tileByte; omega
  have hcol : (ty * tw + tx) % tw = tx := by
    rw [Nat.mul_add_mod_self_right, Nat.mod_eq_of_lt htx]
  show 8 * (tileByte tw ty tx py px / 32 % tw) + 2 * (tileByte tw ty tx py px % 4) = _
  rw [htile, hpair, hcol]

theorem byteRow_tileByte {tw tx py px : Nat} (ty : Nat) (htx : tx < tw) (hpy : py < 8) (hpx : px < 4) :
    byteRow tw (tileByte tw ty tx py px) = 8 * ty + py := by
  have htile : tileByte tw ty tx py px / 32 = ty * tw + tx := by unfold tileByte; omega
  have hrow : tileByte tw ty tx py px % 32 / 4 = py := by unfold tileByte; omega
  have htr : (ty * tw + tx) / tw = ty := by
    rw [Nat.add_comm, Nat.add_mul_div_right _ _ (by omega), Nat.div_eq_of_lt htx, Nat.zero_add]
  show 8 * (tileByte tw ty tx py px / 32 / tw) + tileByte tw ty tx py px % 32 / 4 = _
  rw [htile, hrow, htr]

/-- Every data byte is the pair of some place. -/
theorem tileByte_of_byte (tw k : Nat) :
    tileByte tw (k / 32 / tw) (k / 32 % tw) (k % 32 / 4) (k % 4) = k := by
  unfold tileByte
  rw [Nat.div_add_mod']
  omega

/-- The layout formula counts the data bytes from the end of the header (R195). -/
theorem layoutOffset_eq (tw cx cy : Nat) :
    layoutOffset tw cx cy = 4 + tileByte tw (cy / 8) (cx / 8) (cy % 8) (cx % 8 / 2) := by
  show 4 + 32 * (cy / 8 * tw + cx / 8) + 4 * (cy % 8) + cx % 8 / 2 = _
  unfold tileByte
  omega

/-! ## The events of a data byte -/

/-- The two pixels that the layout formula gives data byte `k` (R190, R193, R195). -/
def byteEvents (m : Memory) (ox oy : Int) (tw k : Nat) : List Event :=
  [layoutPixel m ox oy tw (byteColumn tw k) (byteRow tw k),
    layoutPixel m ox oy tw (byteColumn tw k + 1) (byteRow tw k)]

theorem layoutEvents_eq_flatMap (m : Memory) (ox oy : Int) :
    layoutEvents m ox oy =
      (List.range (dataBytes m)).flatMap (byteEvents m ox oy (tilesAcross (bitmapWidth m))) := rfl

/-- Both pixels of a pair lie in the pair's byte (R187). -/
theorem layoutOffset_tileByte (tw ty tx : Nat) {py px b : Nat} (hpy : py < 8) (hpx : px < 4) (hb : b < 2) :
    layoutOffset tw (8 * tx + 2 * px + b) (8 * ty + py) = 4 + tileByte tw ty tx py px := by
  have hty : (8 * ty + py) / 8 = ty := by omega
  have htx : (8 * tx + 2 * px + b) / 8 = tx := by omega
  have hrow : (8 * ty + py) % 8 = py := by omega
  have hpair : (8 * tx + 2 * px + b) % 8 / 2 = px := by omega
  rw [layoutOffset_eq, hty, htx, hrow, hpair]

/-- A pair of the loops is the pair of the layout formula (R187 to R190, R195). -/
theorem pairEvents_eq_byteEvents (m : Memory) (ox oy : Int) {tw tx py px : Nat} (ty : Nat)
    (htx : tx < tw) (hpy : py < 8) (hpx : px < 4) :
    pairEvents ox oy (8 * ty) (8 * tx) py (2 * px) (m.read (4 + tileByte tw ty tx py px)) =
      byteEvents m ox oy tw (tileByte tw ty tx py px) := by
  have hleft : layoutNibble m tw (8 * tx + 2 * px) (8 * ty + py) =
      highNibble (m.read (4 + tileByte tw ty tx py px)) := by
    have hoff := layoutOffset_tileByte tw ty tx hpy hpx (Nat.zero_lt_two)
    rw [Nat.add_zero] at hoff
    rw [layoutNibble, if_pos (by omega), hoff]
  have hright : layoutNibble m tw (8 * tx + 2 * px + 1) (8 * ty + py) =
      lowNibble (m.read (4 + tileByte tw ty tx py px)) := by
    rw [layoutNibble, if_neg (by omega), layoutOffset_tileByte tw ty tx hpy hpx (by decide)]
  unfold byteEvents
  rw [byteColumn_tileByte ty htx hpy hpx, byteRow_tileByte ty htx hpy hpx]
  unfold layoutPixel pairEvents
  rw [hleft, hright]
  push_cast
  simp only [add_assoc]

/-! ## The loops -/

/-- A part of the decode that reads the `c` data bytes from `k` on, as far as graphics memory goes, which
holds 65532 of them after the header: their events, and the pointer after them or the stop (R186). -/
def byteRun (evs : Nat → List Event) (k c : Nat) : DrawRun :=
  ⟨(List.range' k (min c (65532 - k))).flatMap evs, if k + c ≤ 65532 then some (4 + (k + c)) else none⟩

theorem byteRun_zero {evs : Nat → List Event} {k : Nat} (h : k ≤ 65532) :
    byteRun evs k 0 = ⟨[], some (4 + k)⟩ := by
  simp [byteRun, h]

/-- A part that stays inside graphics memory is followed by the next. -/
theorem byteRun_add {evs : Nat → List Event} {k c : Nat} (d : Nat) (h : k + c ≤ 65532) :
    byteRun evs k (c + d) = ⟨(byteRun evs k c).events ++ (byteRun evs (k + c) d).events,
      (byteRun evs (k + c) d).ptr⟩ := by
  have hsplit : min (c + d) (65532 - k) = c + min d (65532 - (k + c)) := by omega
  have hall : min c (65532 - k) = c := by omega
  unfold byteRun
  rw [hsplit, hall, ← List.range'_append_1, List.flatMap_append, Nat.add_assoc k c d]

/-- A part that reaches the end of graphics memory is all there is. -/
theorem byteRun_add_of_stop {evs : Nat → List Event} {k c : Nat} (d : Nat) (h : 65532 < k + c) :
    byteRun evs k (c + d) = byteRun evs k c := by
  have hsame : min (c + d) (65532 - k) = min c (65532 - k) := by omega
  unfold byteRun
  rw [hsame, if_neg (by omega), if_neg (by omega)]

theorem byteRun_of_next {evs : Nat → List Event} {k c : Nat} (h : k + c ≤ 65532) :
    byteRun evs k c = ⟨(byteRun evs k c).events, some (4 + (k + c))⟩ := by
  unfold byteRun
  rw [if_pos h]

theorem byteRun_of_stop {evs : Nat → List Event} {k c : Nat} (h : 65532 < k + c) :
    byteRun evs k c = ⟨(byteRun evs k c).events, none⟩ := by
  unfold byteRun
  rw [if_neg (Nat.not_le_of_lt h)]

/-- A loop of `n` passes, each of which reads the next `c` data bytes, reads `n * c` of them: the one
induction behind all four loops (R185). -/
theorem drawLoop_eq_byteRun {body : Nat → Nat → DrawRun} {evs : Nat → List Event} {c : Nat} (n : Nat)
    {f : Nat → Nat} {k : Nat} (hk : k ≤ 65532)
    (hbody : ∀ j < n, k + j * c ≤ 65532 → body (f j) (4 + (k + j * c)) = byteRun evs (k + j * c) c) :
    drawLoop body ((List.range n).map f) (4 + k) = byteRun evs k (n * c) := by
  induction n generalizing f k with
  | zero => rw [Nat.zero_mul, byteRun_zero hk]; rfl
  | succ n ih =>
    have hfirst : body (f 0) (4 + k) = byteRun evs k c := by
      simpa using hbody 0 (Nat.succ_pos n) (by simpa using hk)
    rw [List.range_succ_eq_map, List.map_cons, List.map_map, Nat.succ_mul, Nat.add_comm (n * c) c]
    by_cases hfit : k + c ≤ 65532
    · have hrest := ih (f := f ∘ Nat.succ) hfit fun j hj hjk => by
        have hnext := hbody (j + 1) (Nat.succ_lt_succ hj)
        rw [Nat.succ_mul, Nat.add_comm (j * c) c, ← Nat.add_assoc] at hnext
        exact hnext hjk
      rw [drawLoop_cons_next (hfirst.trans (byteRun_of_next hfit)), hrest, byteRun_add _ hfit]
    · have hstop := byteRun_of_stop (evs := evs) (Nat.lt_of_not_le hfit)
      rw [drawLoop_cons_stop (hfirst.trans hstop), byteRun_add_of_stop _ (Nat.lt_of_not_le hfit),
        ← hstop]

section
variable (m : Memory) (ox oy : Int) {tw : Nat}

/-- One pair reads one data byte (R186). -/
theorem drawPair_eq_byteRun {tx py px : Nat} (ty : Nat) (htx : tx < tw) (hpy : py < 8) (hpx : px < 4) :
    drawPair m ox oy (8 * ty) (8 * tx) py (2 * px) (4 + tileByte tw ty tx py px) =
      byteRun (byteEvents m ox oy tw) (tileByte tw ty tx py px) 1 := by
  rw [drawPair_eq, pairEvents_eq_byteEvents m ox oy ty htx hpy hpx]
  generalize tileByte tw ty tx py px = k
  by_cases hin : k < 65532
  · have hone : min 1 (65532 - k) = 1 := by omega
    rw [if_pos (show 4 + k < 65536 by omega), byteRun, hone,
      if_pos (show k + 1 ≤ 65532 from hin)]
    simp [Nat.add_assoc]
  · have hnone : min 1 (65532 - k) = 0 := by omega
    rw [if_neg (show ¬ 4 + k < 65536 by omega), byteRun, hnone, if_neg (by omega)]
    rfl

/-- One row of a tile reads its four data bytes. -/
theorem drawTileRow_eq_byteRun {tx py : Nat} (ty : Nat) (htx : tx < tw) (hpy : py < 8)
    (hk : tileByte tw ty tx py 0 ≤ 65532) :
    drawLoop (drawPair m ox oy (8 * ty) (8 * tx) py) pixelPairs (4 + tileByte tw ty tx py 0) =
      byteRun (byteEvents m ox oy tw) (tileByte tw ty tx py 0) 4 := by
  refine drawLoop_eq_byteRun (c := 1) 4 (f := (2 * ·)) hk fun px hpx _ => ?_
  have hnext : tileByte tw ty tx py 0 + px * 1 = tileByte tw ty tx py px := by unfold tileByte; omega
  rw [hnext]
  exact drawPair_eq_byteRun m ox oy ty htx hpy hpx

/-- One tile reads its 32 data bytes (R185). -/
theorem drawTile_eq_byteRun {tx : Nat} (ty : Nat) (htx : tx < tw)
    (hk : tileByte tw ty tx 0 0 ≤ 65532) :
    drawTile m ox oy (8 * ty) (8 * tx) (4 + tileByte tw ty tx 0 0) =
      byteRun (byteEvents m ox oy tw) (tileByte tw ty tx 0 0) 32 := by
  have hrows : tileRows = (List.range 8).map id := (List.map_id _).symm
  rw [drawTile, hrows]
  refine drawLoop_eq_byteRun (c := 4) 8 hk fun py hpy hle => ?_
  have hnext : tileByte tw ty tx 0 0 + py * 4 = tileByte tw ty tx py 0 := by unfold tileByte; omega
  rw [hnext] at hle ⊢
  exact drawTileRow_eq_byteRun m ox oy ty htx hpy hle

/-- One row of tiles reads the data bytes of its tiles. -/
theorem drawTilesRow_eq_byteRun (tw ty : Nat) (hk : tileByte tw ty 0 0 0 ≤ 65532) :
    drawLoop (drawTile m ox oy (8 * ty)) ((List.range tw).map (8 * ·)) (4 + tileByte tw ty 0 0 0) =
      byteRun (byteEvents m ox oy tw) (tileByte tw ty 0 0 0) (tw * 32) := by
  refine drawLoop_eq_byteRun tw hk fun tx htx hle => ?_
  have hnext : tileByte tw ty 0 0 0 + tx * 32 = tileByte tw ty tx 0 0 := by unfold tileByte; omega
  rw [hnext] at hle ⊢
  exact drawTile_eq_byteRun m ox oy ty htx hle

theorem tileCorners_eq (extent : Nat) :
    tileCorners extent = (List.range (tilesAcross extent)).map (8 * ·) := rfl

/-- All tiles read the data bytes from the first on (R181). -/
theorem drawTiles_eq_byteRun :
    drawTiles m ox oy 4 = byteRun (byteEvents m ox oy (tilesAcross (bitmapWidth m))) 0
      (tilesAcross (bitmapHeight m) * (tilesAcross (bitmapWidth m) * 32)) := by
  unfold drawTiles
  rw [tileCorners_eq, tileCorners_eq]
  refine drawLoop_eq_byteRun (k := 0) _ (Nat.zero_le _) fun ty _ hle => ?_
  have hnext : 0 + ty * (tilesAcross (bitmapWidth m) * 32) =
      tileByte (tilesAcross (bitmapWidth m)) ty 0 0 0 := by
    unfold tileByte; ring
  rw [hnext] at hle ⊢
  exact drawTilesRow_eq_byteRun m ox oy _ ty hle

end

theorem dataBytes_eq (m : Memory) : dataBytes m =
    min (32 * tilesAcross (bitmapWidth m) * tilesAcross (bitmapHeight m)) 65532 := rfl

/-- The decode's events, data byte by data byte. -/
theorem decodeBitmap_eq_flatMap (m : Memory) (ox oy : Int) :
    decodeBitmap m ox oy =
      (List.range (dataBytes m)).flatMap (byteEvents m ox oy (tilesAcross (bitmapWidth m))) := by
  have hcount : tilesAcross (bitmapHeight m) * (tilesAcross (bitmapWidth m) * 32) =
      32 * tilesAcross (bitmapWidth m) * tilesAcross (bitmapHeight m) := by ring
  rw [decodeBitmap_eq]
  show (drawTiles m ox oy 4).events = _
  rw [drawTiles_eq_byteRun, hcount, dataBytes_eq, List.range_eq_range']
  rfl

theorem mem_decodeBitmap_iff {m : Memory} {ox oy : Int} {e : Event} : e ∈ decodeBitmap m ox oy ↔
    ∃ k < dataBytes m, e ∈ byteEvents m ox oy (tilesAcross (bitmapWidth m)) k := by
  rw [decodeBitmap_eq_flatMap, List.mem_flatMap]
  simp only [List.mem_range]

end Sys2Proof.Machine
end

section
/-! What the closed form says of a decode: its pixels' colours and places, their number, their bounds and
their translation (spec/42_draw_btp.md R187 to R196). -/

namespace Sys2Proof.Machine

/-! ## Colours -/

theorem colorOf_highNibble (b : Byte) :
    colorOf (highNibble b) = if b.toNat / 16 = 0 then .unlit else .lit := by
  have hzero : highNibble b = 0 ↔ b.toNat / 16 = 0 := by
    have hb := b.isLt
    rw [← BitVec.toNat_inj, highNibble, BitVec.toNat_ofNat]
    simp
    omega
  simp only [colorOf, hzero]

theorem colorOf_lowNibble (b : Byte) :
    colorOf (lowNibble b) = if b.toNat % 16 = 0 then .unlit else .lit := by
  have hzero : lowNibble b = 0 ↔ b.toNat % 16 = 0 := by
    rw [← BitVec.toNat_inj, lowNibble, BitVec.toNat_ofNat]
    simp
  simp only [colorOf, hzero]

/-! ## Places -/

theorem tileByte_lt {tw th ty tx py px : Nat} (hty : ty < th) (htx : tx < tw) (hpy : py < 8)
    (hpx : px < 4) : tileByte tw ty tx py px < 32 * tw * th := by
  have htiles : ty * tw + tx < tw * th :=
    calc ty * tw + tx < (ty + 1) * tw := by rw [Nat.succ_mul]; omega
      _ ≤ th * tw := Nat.mul_le_mul_right tw hty
      _ = tw * th := Nat.mul_comm th tw
  rw [Nat.mul_assoc]
  unfold tileByte
  omega

/-- A data byte of the bitmap is a pair of one of its tiles. -/
theorem exists_tileByte_of_lt {tw th k : Nat} (h : k < 32 * tw * th) : ∃ ty tx py px,
    ty < th ∧ tx < tw ∧ py < 8 ∧ px < 4 ∧ tileByte tw ty tx py px = k := by
  have htw : 0 < tw := Nat.pos_of_ne_zero fun h0 => by simp [h0] at h
  refine ⟨k / 32 / tw, k / 32 % tw, k % 32 / 4, k % 4, ?_, Nat.mod_lt _ htw, by omega, by omega,
    tileByte_of_byte tw k⟩
  rwa [Nat.div_div_eq_div_mul, Nat.div_lt_iff_lt_mul (by positivity), Nat.mul_comm]

/-- The left and the right pixel of a pair. -/
theorem mem_byteEvents_tileByte {m : Memory} {ox oy : Int} {tw tx py px : Nat} (ty : Nat) {e : Event}
    (htx : tx < tw) (hpy : py < 8) (hpx : px < 4) :
    e ∈ byteEvents m ox oy tw (tileByte tw ty tx py px) ↔
      ∃ b < 2, e = layoutPixel m ox oy tw (8 * tx + 2 * px + b) (8 * ty + py) := by
  unfold byteEvents
  rw [byteColumn_tileByte ty htx hpy hpx, byteRow_tileByte ty htx hpy hpx]
  simp only [List.mem_cons, List.not_mem_nil, or_false]
  constructor
  · rintro (rfl | rfl)
    · exact ⟨0, by decide, rfl⟩
    · exact ⟨1, by decide, rfl⟩
  · rintro ⟨b, hb, rfl⟩
    obtain rfl | rfl : b = 0 ∨ b = 1 := by omega
    · exact .inl rfl
    · exact .inr rfl

/-- A data byte in graphics memory belongs to one of the first 2048 tiles, so its pixels lie at most 16383
columns and rows from the origin (R194). -/
theorem byte_place_le (tw : Nat) {k : Nat} (h : k < 65532) :
    byteColumn tw k + 1 ≤ 16383 ∧ byteRow tw k ≤ 16383 := by
  have htx : k / 32 % tw ≤ k / 32 := Nat.mod_le _ _
  have hty : k / 32 / tw ≤ k / 32 := Nat.div_le_self _ _
  show 8 * (k / 32 % tw) + 2 * (k % 4) + 1 ≤ 16383 ∧ 8 * (k / 32 / tw) + k % 32 / 4 ≤ 16383
  omega

/-- A pixel within those places, at a signed 16-bit origin (R194). -/
theorem layoutPixel_bounded (m : Memory) (x y : Half) (tw : Nat) {cx cy : Nat} (hcx : cx ≤ 16383)
    (hcy : cy ≤ 16383) : ∃ (px py : Int) (c : Color),
      layoutPixel m x.toInt y.toInt tw cx cy = .pixel px py 2 c ∧
      -65536 ≤ px ∧ px ≤ 98300 ∧ -65536 ≤ py ∧ py ≤ 98300 := by
  obtain ⟨hx, hx'⟩ := sext16_range x
  obtain ⟨hy, hy'⟩ := sext16_range y
  rw [sext16_eq_toInt] at hx hx' hy hy'
  refine ⟨(x.toInt + cx) * 2, (y.toInt + cy) * 2, _, rfl, ?_⟩
  omega

theorem layoutPixel_shift (m : Memory) (ox1 oy1 ox2 oy2 : Int) (tw cx cy : Nat) :
    (layoutPixel m ox1 oy1 tw cx cy).shift (2 * (ox2 - ox1)) (2 * (oy2 - oy1)) =
      layoutPixel m ox2 oy2 tw cx cy := by
  have hx : (ox1 + cx) * 2 + 2 * (ox2 - ox1) = (ox2 + cx) * 2 := by ring
  have hy : (oy1 + cy) * 2 + 2 * (oy2 - oy1) = (oy2 + cy) * 2 := by ring
  show Event.pixel ((ox1 + cx) * 2 + 2 * (ox2 - ox1)) ((oy1 + cy) * 2 + 2 * (oy2 - oy1)) 2 _ = _
  rw [hx, hy]
  rfl

theorem byteEvents_shift (m : Memory) (ox1 oy1 ox2 oy2 : Int) (tw k : Nat) :
    (byteEvents m ox1 oy1 tw k).map (Event.shift (2 * (ox2 - ox1)) (2 * (oy2 - oy1))) =
      byteEvents m ox2 oy2 tw k := by
  simp only [byteEvents, List.map_cons, List.map_nil, layoutPixel_shift]

end Sys2Proof.Machine

namespace Sys2Proof.Proofs

open Sys2Proof.Machine

/-- Settles O38: a colour is lit where its half of the byte is not 0. -/
theorem dataByteGivesLeftThenRightPixel : Obligations.DataByteGivesLeftThenRightPixel := by
  intro m ox oy ty tx py px ptr hptr
  rw [drawPair_eq, if_pos hptr, pairEvents, colorOf_highNibble, colorOf_lowNibble, Int.add_zero]
  rfl

/-- Settles O39: each of the four loops reads the data bytes of its passes, so the decode reads all of the
bitmap's, up to the end of graphics memory. -/
theorem decoderLoopsEqualTheLayoutFormula : Obligations.DecoderLoopsEqualTheLayoutFormula :=
  fun m ox oy => (decodeBitmap_eq_flatMap m ox oy).trans (layoutEvents_eq_flatMap m ox oy).symm

/-- Settles O40: two events for each of the `N` data bytes. -/
theorem decodeEmitsTwoEventsPerDataByte : Obligations.DecodeEmitsTwoEventsPerDataByte := by
  intro m ox oy
  have htwo (k : Nat) : (byteEvents m ox oy (tilesAcross (bitmapWidth m)) k).length = 2 := rfl
  rw [decodeBitmap_eq_flatMap, List.length_flatMap]
  simp only [htwo, List.map_const', List.sum_replicate, List.length_range, smul_eq_mul]
  rw [Nat.mul_comm]
  rfl

/-- Settles O41: an empty bitmap has no data bytes. -/
theorem emptyBitmapDrawsNothing : Obligations.EmptyBitmapDrawsNothing := by
  intro m ox oy hempty
  have hnone : dataBytes m = 0 := by
    have hno_tiles : tilesAcross 0 = 0 := rfl
    rw [dataBytes_eq]
    obtain h | h := hempty <;> simp [h, hno_tiles]
  rw [decodeBitmap_eq_flatMap, hnone]
  rfl

/-- Settles O42: the end of graphics memory bounds the places, and the origin is a signed half. -/
theorem decodedCoordinatesAreBounded : Obligations.DecodedCoordinatesAreBounded := by
  intro m x y e he
  obtain ⟨k, hk, he⟩ := mem_decodeBitmap_iff.1 he
  rw [dataBytes_eq] at hk
  obtain ⟨hcol, hrow⟩ := byte_place_le (tilesAcross (bitmapWidth m))
    (Nat.lt_of_lt_of_le hk (Nat.min_le_right _ _))
  obtain rfl | rfl : e = _ ∨ e = _ := by simpa [byteEvents] using he
  · exact layoutPixel_bounded m x y _ (Nat.le_of_succ_le hcol) hrow
  · exact layoutPixel_bounded m x y _ hcol hrow

/-- Settles O43: the origin enters a pixel only as a sum with its place. -/
theorem decodesAtTwoOriginsAreTranslates : Obligations.DecodesAtTwoOriginsAreTranslates := by
  intro m ox1 oy1 ox2 oy2
  rw [decodeBitmap_eq_flatMap, decodeBitmap_eq_flatMap, List.map_flatMap]
  simp only [byteEvents_shift]

/-- Settles O44: the data bytes of the decode are the pairs of the bitmap's tiles that lie in graphics
memory, and each pixel is one of the two of its pair. -/
theorem exactlyTheLaidOutPixelsAreDrawn : Obligations.ExactlyTheLaidOutPixelsAreDrawn := by
  intro m ox oy e
  rw [mem_decodeBitmap_iff, dataBytes_eq]
  constructor
  · rintro ⟨k, hk, he⟩
    obtain ⟨hk_tiles, hk_mem⟩ := Nat.lt_min.1 hk
    obtain ⟨ty, tx, py, px, hty, htx, hpy, hpx, rfl⟩ := exists_tileByte_of_lt hk_tiles
    obtain ⟨b, hb, rfl⟩ := (mem_byteEvents_tileByte ty htx hpy hpx).1 he
    refine ⟨8 * tx + 2 * px + b, 8 * ty + py, by omega, by omega, ?_, rfl⟩
    rw [layoutOffset_tileByte _ _ _ hpy hpx hb]
    simp only [Config.gfxMemSize]
    omega
  · rintro ⟨cx, cy, hcx, hcy, hoff, rfl⟩
    have htx : cx / 8 < tilesAcross (bitmapWidth m) := by omega
    have hty : cy / 8 < tilesAcross (bitmapHeight m) := by omega
    have hpy : cy % 8 < 8 := Nat.mod_lt _ (by decide)
    have hpx : cx % 8 / 2 < 4 := by omega
    rw [layoutOffset_eq] at hoff
    simp only [Config.gfxMemSize] at hoff
    refine ⟨tileByte _ (cy / 8) (cx / 8) (cy % 8) (cx % 8 / 2),
      Nat.lt_min.2 ⟨tileByte_lt hty htx hpy hpx, by omega⟩,
      (mem_byteEvents_tileByte _ htx hpy hpx).2 ⟨cx % 2, Nat.mod_lt _ (by decide), ?_⟩⟩
    have hcol : 8 * (cx / 8) + 2 * (cx % 8 / 2) + cx % 2 = cx := by omega
    rw [hcol, Nat.div_add_mod]

end Sys2Proof.Proofs
end
